-- ==== Sys2Proof/Word.lean ====
section
/-! DEFINITION. The cell value and its range: spec/00_scope.md R6, R11, R15.

The value of a tape cell, an operand, a register or the instruction pointer is a mathematical integer (R11), Lean's `Int`,
which the machine keeps inside `InRange W`. A cell is an integer, never bytes (spec/20_memory.md R34). -/

namespace Sys2Proof

/-- `2^(W-1)`, the size of each half of `Int_W` (R6). -/
def halfRange (W : Nat) : Int := ((2 ^ (W - 1) : Nat) : Int)

/-- `v` is in `Int_W = [-2^(W-1), 2^(W-1) - 1]` (R6); `in_range` of R15. -/
abbrev InRange (W : Nat) (v : Int) : Prop := -halfRange W ≤ v ∧ v < halfRange W

end Sys2Proof
end

