-- ==== Sys2Proof/Config.lean ====
section
/-! DEFINITION. What is fixed for a run: the parameters W, LEN, MODE, CEILING and INPUT of spec/00_scope.md R6 to R10,
as the configuration the machine holds and as the arguments the host launches it with. -/

namespace Sys2Proof

/-- MODE (R8). -/
inductive RunMode where
  | restricted
  | full
  deriving DecidableEq, Repr

/-- The configuration of one run, constant during it (spec/10_state.md R28).
W is an open parameter of the spec (R6, spec/92_eei_decisions.md D1). DESIGN CHOICE: it stands here as a field, safe
(notes/assumptions/2.md). -/
structure Config where
  /-- `W`, the cell width in bits (R6). -/
  width : Nat
  /-- `MODE` (R8). -/
  mode : RunMode
  /-- `CEILING`: a number, or none (R9). -/
  ceiling : Option Nat
  /-- `LEN`, the tape length in cells (R7). -/
  len : Nat
  deriving DecidableEq, Repr

/-- `W >= 32` (R6) and `LEN <= 2^(W-1) - 4` (R7). -/
def Config.wf (c : Config) : Bool := decide (32 ≤ c.width ∧ (c.len : Int) ≤ halfRange c.width - 4)

/-- The run mode the host chooses, with INPUT, which exists in full mode only (R10). -/
inductive LaunchMode where
  | restricted
  | full (input : Int)
  deriving DecidableEq, Repr

/-- The launch signals of the block interface (R17): the parsed and patched program (`tape_init`), `mode` with
`input`, and `ceiling`; W is the machine's own. -/
structure Launch where
  width : Nat
  mode : LaunchMode
  ceiling : Option Nat
  program : List Int
  deriving DecidableEq, Repr

/-- The run mode a launch selects. -/
def LaunchMode.runMode : LaunchMode → RunMode
  | .restricted => .restricted
  | .full _ => .full

/-- The configuration a launch fixes; LEN is the number of cells of the program (spec/70_reset_and_hazards.md R104). -/
def Launch.config (l : Launch) : Config where
  width := l.width
  mode := l.mode.runMode
  ceiling := l.ceiling
  len := l.program.length

/-- INPUT, where there is one, is a value of `Int_W` (R10). -/
def LaunchMode.inputInRange (W : Nat) : LaunchMode → Bool
  | .restricted => true
  | .full input => decide (InRange W input)

/-- The launch preconditions: R6, R7, every cell in `Int_W` (spec/10_state.md R19), INPUT in `Int_W` (R10). -/
def Launch.wf (l : Launch) : Bool :=
  l.config.wf && l.program.all (fun v => decide (InRange l.width v)) && l.mode.inputInRange l.width

end Sys2Proof
end

