-- ==== Sys2Proof/Syntax.lean ====
section
/-! DEFINITION. The instructions: one constructor for each row of spec/opcode_table.json (spec/30_encoding.md R45,
spec/44_restricted_mode.md R85 to R87), their operands, and the names of what the decoder reads and refuses. -/

namespace Sys2Proof

/-- An addressing mode (spec/30_encoding.md R46). -/
inductive AddrMode where
  | position
  | immediate
  deriving DecidableEq, Repr

/-- A read operand with its operand cell's value (R46, R49): an address to dereference, or the literal itself. -/
inductive Operand where
  | position (p : Int)
  | immediate (v : Int)
  deriving DecidableEq, Repr

/-- The addressing mode of a read operand. -/
def Operand.mode : Operand → AddrMode
  | .position _ => .position
  | .immediate _ => .immediate

/-- The value of the operand cell that holds a read operand (R49). -/
def Operand.cell : Operand → Int
  | .position p => p
  | .immediate v => v

/-- The read operand an addressing mode makes of an operand cell (R46). -/
def AddrMode.operand : AddrMode → Int → Operand
  | .position, p => .position p
  | .immediate, v => .immediate v

/-- Whether an operand is read or written (R45: `r`, `w`). -/
inductive OperandKind where
  | read
  | write
  deriving DecidableEq, Repr

/-- The operations, one for each row of the opcode table (R45; the restricted rows by R55). -/
inductive Op where
  | add | mul | input | output | jit | jif | lt | eq | halt
  | addRestricted | mulRestricted | haltRestricted
  deriving DecidableEq, Repr

/-- An instruction with its operand cells. A write operand (`dst`) is an address, always in position mode (R47);
in restricted mode all three operands are addresses (spec/44_restricted_mode.md R85, R86). -/
inductive Instr where
  /-- ADD, word 1 with mode digits (spec/41_arith_compare.md R73). -/
  | add (a b : Operand) (dst : Int)
  /-- MUL, word 2 with mode digits (R74). -/
  | mul (a b : Operand) (dst : Int)
  /-- IN, word 3 (spec/42_io.md R78). -/
  | input (dst : Int)
  /-- OUT, word 4 or 104 (R79). -/
  | output (val : Operand)
  /-- JIT, word 5 with mode digits (spec/43_control.md R80). -/
  | jit (val target : Operand)
  /-- JIF, word 6 with mode digits (R81). -/
  | jif (val target : Operand)
  /-- LT, word 7 with mode digits (spec/41_arith_compare.md R75). -/
  | lt (a b : Operand) (dst : Int)
  /-- EQ, word 8 with mode digits (R76). -/
  | eq (a b : Operand) (dst : Int)
  /-- HALT, word 99 (spec/43_control.md R82). -/
  | halt
  /-- ADD in restricted mode, word exactly 1 (spec/44_restricted_mode.md R85). -/
  | addRestricted (p₁ p₂ dst : Int)
  /-- MUL in restricted mode, word exactly 2 (R86). -/
  | mulRestricted (p₁ p₂ dst : Int)
  /-- HALT in restricted mode, word exactly 99 (R87). -/
  | haltRestricted
  deriving DecidableEq, Repr

/-- The operation of an instruction. -/
def Instr.op : Instr → Op
  | .add _ _ _ => .add
  | .mul _ _ _ => .mul
  | .input _ => .input
  | .output _ => .output
  | .jit _ _ => .jit
  | .jif _ _ => .jif
  | .lt _ _ _ => .lt
  | .eq _ _ _ => .eq
  | .halt => .halt
  | .addRestricted _ _ _ => .addRestricted
  | .mulRestricted _ _ _ => .mulRestricted
  | .haltRestricted => .haltRestricted

/-- Why the decoder refuses a word (spec/30_encoding.md R50 to R53). -/
inductive IllegalReason where
  | negativeWord
  | unknownOpcode
  | badMode
  | immediateDestination
  | excessDigits
  deriving DecidableEq, Repr

/-- The decoder's output for a legal word (spec/00_scope.md R18): the operation and the modes of operands 1 and 2.
The operand count follows from the operation (R45); operand 3 is always written, in mode 0 (R47), and the mode digit of
an operand the operation does not have is 0 (R53). -/
structure Decoded where
  op : Op
  m₁ : AddrMode
  m₂ : AddrMode
  deriving DecidableEq, Repr

/-- Why a list of cells does not begin with an instruction: its word is illegal, or it ends before cell `k` of the
instruction (cell 0 is the word, cell `k` is operand cell `k`). -/
inductive DecodeError where
  | illegal (reason : IllegalReason) (word : Int)
  | truncated (k : Nat)
  deriving DecidableEq, Repr

end Sys2Proof
end

