-- ==== Sys2Proof/WellFormed.lean ====
section
/-! DEFINITION. Which instructions a run of width W and mode MODE can contain: every operand cell is a value of `Int_W`
(spec/00_scope.md R6) and the operation is one of the run mode's (spec/30_encoding.md R54, R55). -/

namespace Sys2Proof

/-- The run mode whose decoder gives the operation (R54, R55). -/
def Op.runMode : Op → RunMode
  | .add | .mul | .input | .output | .jit | .jif | .lt | .eq | .halt => .full
  | .addRestricted | .mulRestricted | .haltRestricted => .restricted

/-- Every operand cell of the instruction is a value of `Int_W`. -/
def Instr.cellsInRange (W : Nat) : Instr → Bool
  | .add a b dst | .mul a b dst | .lt a b dst | .eq a b dst =>
    decide (InRange W a.cell) && decide (InRange W b.cell) && decide (InRange W dst)
  | .input dst => decide (InRange W dst)
  | .output val => decide (InRange W val.cell)
  | .jit val target | .jif val target => decide (InRange W val.cell) && decide (InRange W target.cell)
  | .halt | .haltRestricted => true
  | .addRestricted p₁ p₂ dst | .mulRestricted p₁ p₂ dst =>
    decide (InRange W p₁) && decide (InRange W p₂) && decide (InRange W dst)

/-- Well-formed for width `W` and run mode `m`. -/
def Instr.wellFormed (W : Nat) (m : RunMode) (i : Instr) : Bool := i.cellsInRange W && decide (i.op.runMode = m)

end Sys2Proof
end

