-- ==== Sys2Proof/Decode.lean ====
section
/-! DEFINITION. The decoder and the encoder: spec/30_encoding.md R43 to R58, both run modes. -/

namespace Sys2Proof

/-- `digit_k(w)`, the decimal digit of weight `10^k` (spec/00_scope.md R11). -/
def digit (k w : Nat) : Nat := w / 10 ^ k % 10

/-- The opcode number of an operation, column `op` (R45; restricted words by R55). -/
def Op.number : Op → Nat
  | .add | .addRestricted => 1
  | .mul | .mulRestricted => 2
  | .input => 3
  | .output => 4
  | .jit => 5
  | .jif => 6
  | .lt => 7
  | .eq => 8
  | .halt | .haltRestricted => 99

/-- The operands of an operation, column `operands` (R45). -/
def Op.kinds : Op → List OperandKind
  | .add | .mul | .lt | .eq | .addRestricted | .mulRestricted => [.read, .read, .write]
  | .input => [.write]
  | .output => [.read]
  | .jit | .jif => [.read, .read]
  | .halt | .haltRestricted => []

/-- `n`, the operand count (R45); the instruction's length is `n + 1` cells (R48). -/
def Op.count (op : Op) : Nat := op.kinds.length

/-- The full-mode operation of an opcode number; none for 0 and 9 to 98 (R51). -/
def fullOp : Nat → Option Op
  | 1 => some .add
  | 2 => some .mul
  | 3 => some .input
  | 4 => some .output
  | 5 => some .jit
  | 6 => some .jif
  | 7 => some .lt
  | 8 => some .eq
  | 99 => some .halt
  | _ => none

/-- The addressing mode of a mode digit that passed the checks of R52 (0 position, 1 immediate: R46). -/
def modeOfDigit : Nat → AddrMode
  | 0 => .position
  | _ => .immediate

/-- The loop of `decode_full` over the operands from number `k` on (R54, R52). -/
def checkModes (w : Nat) : Nat → List OperandKind → Except IllegalReason Unit
  | _, [] => .ok ()
  | k, kind :: rest =>
    if 2 ≤ digit (k + 1) w then .error .badMode
    else if kind = .write ∧ digit (k + 1) w = 1 then .error .immediateDestination
    else checkModes w (k + 1) rest

/-- `decode_full` (R54). -/
def decodeFull (w : Int) : Except IllegalReason Decoded :=
  if w < 0 then .error .negativeWord
  else
    match fullOp (w.toNat % 100) with
    | none => .error .unknownOpcode
    | some op =>
      match checkModes w.toNat 1 op.kinds with
      | .error r => .error r
      | .ok _ =>
        if w.toNat / 10 ^ (op.count + 2) ≠ 0 then .error .excessDigits
        else .ok { op := op, m₁ := modeOfDigit (digit 2 w.toNat), m₂ := modeOfDigit (digit 3 w.toNat) }

/-- `decode_restricted` (R55). -/
def decodeRestricted (w : Int) : Except IllegalReason Decoded :=
  if w = 1 then .ok { op := .addRestricted, m₁ := .position, m₂ := .position }
  else if w = 2 then .ok { op := .mulRestricted, m₁ := .position, m₂ := .position }
  else if w = 99 then .ok { op := .haltRestricted, m₁ := .position, m₂ := .position }
  else .error .unknownOpcode

/-- The decoder: it reads the word and MODE and nothing else (R57). -/
def decodeWord : RunMode → Int → Except IllegalReason Decoded
  | .full => decodeFull
  | .restricted => decodeRestricted

/-- An instruction of one operand cell, fetched from `cell`. -/
def build1 {ε : Type} (cell : Nat → Except ε Int) (mk : Int → Instr) : Except ε Instr :=
  match cell 1 with
  | .error e => .error e
  | .ok p₁ => .ok (mk p₁)

/-- An instruction of two operand cells, fetched from `cell` in increasing order. -/
def build2 {ε : Type} (cell : Nat → Except ε Int) (mk : Int → Int → Instr) : Except ε Instr :=
  match cell 1 with
  | .error e => .error e
  | .ok p₁ =>
    match cell 2 with
    | .error e => .error e
    | .ok p₂ => .ok (mk p₁ p₂)

/-- An instruction of three operand cells, fetched from `cell` in increasing order. -/
def build3 {ε : Type} (cell : Nat → Except ε Int) (mk : Int → Int → Int → Instr) : Except ε Instr :=
  match cell 1 with
  | .error e => .error e
  | .ok p₁ =>
    match cell 2 with
    | .error e => .error e
    | .ok p₂ =>
      match cell 3 with
      | .error e => .error e
      | .ok p₃ => .ok (mk p₁ p₂ p₃)

/-- The instruction of a legal word, its operand cells `p_k` taken whole from `cell k` for `k` from 1 to `n`
(R49, spec/40_operands_and_sequencer.md R67); the first cell that cannot be had gives the error. -/
def Decoded.build {ε : Type} (cell : Nat → Except ε Int) (d : Decoded) : Except ε Instr :=
  match d.op with
  | .add => build3 cell fun p₁ p₂ p₃ => .add (d.m₁.operand p₁) (d.m₂.operand p₂) p₃
  | .mul => build3 cell fun p₁ p₂ p₃ => .mul (d.m₁.operand p₁) (d.m₂.operand p₂) p₃
  | .input => build1 cell fun p₁ => .input p₁
  | .output => build1 cell fun p₁ => .output (d.m₁.operand p₁)
  | .jit => build2 cell fun p₁ p₂ => .jit (d.m₁.operand p₁) (d.m₂.operand p₂)
  | .jif => build2 cell fun p₁ p₂ => .jif (d.m₁.operand p₁) (d.m₂.operand p₂)
  | .lt => build3 cell fun p₁ p₂ p₃ => .lt (d.m₁.operand p₁) (d.m₂.operand p₂) p₃
  | .eq => build3 cell fun p₁ p₂ p₃ => .eq (d.m₁.operand p₁) (d.m₂.operand p₂) p₃
  | .halt => .ok .halt
  | .addRestricted => build3 cell fun p₁ p₂ p₃ => .addRestricted p₁ p₂ p₃
  | .mulRestricted => build3 cell fun p₁ p₂ p₃ => .mulRestricted p₁ p₂ p₃
  | .haltRestricted => .ok .haltRestricted

/-- Operand cell `k` of an instruction whose operand cells begin the list `cells`. -/
def operandCell (cells : List Int) (k : Nat) : Except DecodeError Int :=
  match cells[k - 1]? with
  | some p => .ok p
  | none => .error (.truncated k)

/-- The instruction at the head of a list of cells, and the cells after it (R43); total, refusing by name. -/
def decode (m : RunMode) : List Int → Except DecodeError (Instr × List Int)
  | [] => .error (.truncated 0)
  | w :: rest =>
    match decodeWord m w with
    | .error r => .error (.illegal r w)
    | .ok d =>
      match d.build (operandCell rest) with
      | .error e => .error e
      | .ok i => .ok (i, rest.drop d.op.count)

/-- The mode digit of an addressing mode (R46). -/
def AddrMode.digit : AddrMode → Nat
  | .position => 0
  | .immediate => 1

/-- The instruction word `op + 100*m_1 + 1000*m_2 + 10000*m_3`, with `m_3 = 0` (R58, R47). -/
def encodeWord (op : Op) (m₁ m₂ : AddrMode) : Int := ((op.number + 100 * m₁.digit + 1000 * m₂.digit : Nat) : Int)

/-- The cells of an instruction: its word, then its operand cells (R43, R58). -/
def encode : Instr → List Int
  | .add a b dst => [encodeWord .add a.mode b.mode, a.cell, b.cell, dst]
  | .mul a b dst => [encodeWord .mul a.mode b.mode, a.cell, b.cell, dst]
  | .input dst => [encodeWord .input .position .position, dst]
  | .output val => [encodeWord .output val.mode .position, val.cell]
  | .jit val target => [encodeWord .jit val.mode target.mode, val.cell, target.cell]
  | .jif val target => [encodeWord .jif val.mode target.mode, val.cell, target.cell]
  | .lt a b dst => [encodeWord .lt a.mode b.mode, a.cell, b.cell, dst]
  | .eq a b dst => [encodeWord .eq a.mode b.mode, a.cell, b.cell, dst]
  | .halt => [encodeWord .halt .position .position]
  | .addRestricted p₁ p₂ dst => [encodeWord .addRestricted .position .position, p₁, p₂, dst]
  | .mulRestricted p₁ p₂ dst => [encodeWord .mulRestricted .position .position, p₁, p₂, dst]
  | .haltRestricted => [encodeWord .haltRestricted .position .position]

/-- The two's-complement value of `W` bits read as the number `n`. -/
def signedCell (W n : Nat) : Int :=
  if n % 2 ^ W < 2 ^ (W - 1) then ((n % 2 ^ W : Nat) : Int) else ((n % 2 ^ W : Nat) : Int) - ((2 ^ W : Nat) : Int)

/-- The four cells (the longest instruction, R45) of an instruction whose first `nbits` bits are `w`, numbered as
spec/opcode_table.json numbers them, every later bit 0: cell `k` holds bits `W*k` to `W*k + W - 1`.
DESIGN CHOICE: the spec has no bit layout of an instruction (spec/20_memory.md R34), safe (notes/assumptions/5.md). -/
def tableCells (W nbits w : Nat) : List Int :=
  [0, 1, 2, 3].map fun k => signedCell W (w % 2 ^ nbits / 2 ^ (W * k))

/-- The instruction the decoder reads from a word numbered as spec/opcode_table.json numbers it. DESIGN CHOICE: cells
of 64 bits and the full-mode decoder, those of `State.reset`, safe (notes/assumptions/5.md). -/
def decodeTableWord (nbits w : Nat) : Option Instr :=
  match decode .full (tableCells 64 nbits w) with
  | .ok (i, _) => some i
  | .error _ => none

end Sys2Proof
end

