-- ==== Sys2Proof/Machine/State.lean ====
section
/-! DEFINITION. The whole architectural state (spec/10_state.md), the reset state (spec/70_reset_and_hazards.md R102)
and the reasons a step has no next state. -/

namespace Sys2Proof.Machine

/-- The tape's contents: (address, value) pairs with addresses strictly rising and no value that an unlisted address
reads as, so that equal tapes are equal data. The unit is the whole cell, an integer (spec/20_memory.md R31, R34).
DESIGN CHOICE, safe (notes/assumptions/1.md). -/
abbrev Memory := List (Nat × Int)

/-- What an address not listed reads as. Every cell has its launch value (spec/10_state.md R20), so an unlisted
address inside the tape IS a cell whose value is 0. DESIGN CHOICE, safe (notes/assumptions/1.md). -/
def Memory.unlisted : Int := 0

/-- Every listed address is at least `lo`, addresses rise strictly, and no listed value is the unlisted one. -/
def Memory.wfFrom (lo : Nat) : Memory → Bool
  | [] => true
  | (a, v) :: m => decide (lo ≤ a) && decide (v ≠ Memory.unlisted) && Memory.wfFrom (a + 1) m

/-- The canonical form of a memory. -/
def Memory.wf (m : Memory) : Bool := Memory.wfFrom 0 m

/-- The canonical memory that holds `cells` at the addresses from `a` on. -/
def Memory.ofCells : Nat → List Int → Memory
  | _, [] => []
  | a, v :: vs => if v = Memory.unlisted then Memory.ofCells (a + 1) vs else (a, v) :: Memory.ofCells (a + 1) vs

/-- The kinds of failure the block reports (spec/60_exceptions.md R88). -/
inductive FaultKind where
  /-- Raised by the decoder, at any step (R89). -/
  | illegalOpcode
  /-- Raised by fetch, operand fetch and the operand resolver, at any step (R90). -/
  | outOfBounds
  /-- Raised by IN when no input is pending (R91). -/
  | inputExhausted
  /-- Raised by the sequencer when the step ceiling is reached (R92). -/
  | runawayProgram
  /-- Raised by ADD and MUL on a result outside `Int_W` (R93). -/
  | overflow
  /-- Reported by the result surface only, never by a step (R97). -/
  | noOutput
  /-- Reported by the host only, before a run (R94). -/
  | parseError
  deriving DecidableEq, Repr

/-- The `info` of a fault record (spec/10_state.md R26): empty, an address, or a decoder's reason with the word. -/
inductive FaultInfo where
  | empty
  | address (a : Int)
  | word (reason : IllegalReason) (w : Int)
  deriving DecidableEq, Repr

/-- The fault record `(kind, fault_ip, info)` (spec/10_state.md R26). -/
structure FaultRecord where
  kind : FaultKind
  faultIp : Int
  info : FaultInfo
  deriving DecidableEq, Repr

/-- What a failing check of a step raises, with the data its record's `info` takes (spec/60_exceptions.md R88). -/
inductive Cause where
  | illegalOpcode (reason : IllegalReason) (w : Int)
  | outOfBounds (a : Int)
  | inputExhausted
  | runawayProgram
  | overflow
  deriving DecidableEq, Repr

/-- The run status (spec/10_state.md R25). -/
inductive RunStatus where
  | running
  | halted
  | faulted (kind : FaultKind)
  deriving DecidableEq, Repr

/-- The whole state of the block (spec/10_state.md, summary table). -/
structure State where
  /-- `MODE`, `CEILING`, `LEN` (R28) and the parameter `W`. -/
  config : Config
  /-- `tape` (R19). -/
  tape : Memory
  /-- `ip` (R21). -/
  ip : Int
  /-- `in_valid` (R22). -/
  inValid : Bool
  /-- `in_value` (R22). -/
  inValue : Int
  /-- `out_value` (R23). -/
  outValue : Int
  /-- `out_valid` (R24). -/
  outValid : Bool
  /-- `status` (R25). -/
  status : RunStatus
  /-- `fault` (R26). -/
  fault : Option FaultRecord
  /-- `steps` (R27). -/
  steps : Nat
  deriving DecidableEq, Repr

/-- Why the machine has no next state. A fault of the block itself is NOT one of these: it is a next state whose
`status` is `Faulted(kind)` (notes/assumptions/6.md). -/
inductive Fault where
  /-- Raised by `step` when `status` is Halted or Faulted: "the block has no step" there
  (spec/40_operands_and_sequencer.md R61). Safe (notes/assumptions/7.md). -/
  | notRunning
  deriving DecidableEq, Repr

/-- Why an instruction has no meaning in the model. -/
inductive Refusal where
  /-- Raised by `exec` for an instruction that has no meaning yet. Safe. No arm answers it. -/
  | notModelled (mnemonic : String)
  deriving DecidableEq, Repr

/-- `in_valid` at reset (spec/10_state.md R22). -/
def resetInValid : LaunchMode → Bool
  | .restricted => false
  | .full _ => true

/-- `in_value` at reset (spec/10_state.md R22). -/
def resetInValue : LaunchMode → Int
  | .restricted => 0
  | .full input => input

/-- The reset state of a launch (spec/70_reset_and_hazards.md R102). -/
def State.launch (l : Launch) : State where
  config := l.config
  tape := Memory.ofCells 0 l.program
  ip := 0
  inValid := resetInValid l.mode
  inValue := resetInValue l.mode
  outValue := 0
  outValid := false
  status := .running
  fault := none
  steps := 0

/-- The launch that `State.reset` stands for: the empty program in full mode, INPUT 0, no ceiling, W = 64.
DESIGN CHOICE: the spec leaves every launch argument to the host, unsafe (notes/assumptions/2.md, 3.md). -/
def resetLaunch : Launch where
  width := 64
  mode := .full 0
  ceiling := none
  program := []

/-- The machine right after reset: R102 applied to `resetLaunch`. -/
def State.reset : State := State.launch resetLaunch

end Sys2Proof.Machine
end

