-- ==== Sys2Proof/Machine/Ops.lean ====
section
/-! DEFINITION. The shared operations: the memory primitives (spec/00_scope.md R13), taking a fault (R14), the
instruction-pointer controller (spec/40_operands_and_sequencer.md R71) and the commit phase of a step (R60, R62, R63). -/

namespace Sys2Proof.Machine

/-- The value at an address. -/
def Memory.get : Memory → Nat → Int
  | [], _ => Memory.unlisted
  | (b, v) :: m, a => if a = b then v else Memory.get m a

/-- The memory with `v` at address `a`; it keeps the canonical form. -/
def Memory.set : Memory → Nat → Int → Memory
  | [], a, v => if v = Memory.unlisted then [] else [(a, v)]
  | (b, u) :: m, a, v =>
    if a < b then (if v = Memory.unlisted then (b, u) :: m else (a, v) :: (b, u) :: m)
    else if a = b then (if v = Memory.unlisted then m else (a, v) :: m)
    else (b, u) :: Memory.set m a v

/-- The kind a cause is reported under (spec/60_exceptions.md R88). -/
def Cause.kind : Cause → FaultKind
  | .illegalOpcode _ _ => .illegalOpcode
  | .outOfBounds _ => .outOfBounds
  | .inputExhausted => .inputExhausted
  | .runawayProgram => .runawayProgram
  | .overflow => .overflow

/-- The `info` a cause records (R88). -/
def Cause.info : Cause → FaultInfo
  | .illegalOpcode reason w => .word reason w
  | .outOfBounds a => .address a
  | .inputExhausted => .empty
  | .runawayProgram => .empty
  | .overflow => .empty

/-- The numeric code of a kind (R88). -/
def FaultKind.code : FaultKind → Nat
  | .illegalOpcode => 1
  | .outOfBounds => 2
  | .inputExhausted => 3
  | .runawayProgram => 4
  | .overflow => 5
  | .noOutput => 6
  | .parseError => 7

/-- `raise` (spec/00_scope.md R14, spec/60_exceptions.md R95): `status` and the fault record, with the `ip` of the
step's start, and nothing else. There is no return from a fault (R98). The fields left alone keep the last committed
values; a claim about them after a fault is none the spec backs (notes/assumptions/8.md). -/
def State.raise (s : State) (c : Cause) : State :=
  { s with status := .faulted c.kind, fault := some { kind := c.kind, faultIp := s.ip, info := c.info } }

/-- An address of the tape, `0 <= a < LEN` (spec/20_memory.md R32). -/
abbrev State.InBounds (s : State) (a : Int) : Prop := 0 ≤ a ∧ a < (s.config.len : Int)

/-- The cell at an address, whatever the bounds: what `memRead` returns inside them. -/
def State.cell (s : State) (a : Int) : Int := s.tape.get a.toNat

/-- `MemRead(a, 1)` (spec/00_scope.md R13). -/
def State.memRead (s : State) (a : Int) : Except Cause Int :=
  if s.InBounds a then .ok (s.cell a) else .error (.outOfBounds a)

/-- The state with `v` in the cell at `a`. -/
def State.setCell (s : State) (a v : Int) : State := { s with tape := s.tape.set a.toNat v }

/-- `MemWrite(a, 1, v)` (spec/00_scope.md R13). -/
def State.memWrite (s : State) (a v : Int) : Except Cause State :=
  if s.InBounds a then .ok (s.setCell a v) else .error (.outOfBounds a)

/-- The ip request an instruction ends with (spec/00_scope.md R18). -/
inductive IpReq where
  | advance
  | jump (target : Int)
  | halt
  deriving DecidableEq, Repr

/-- `next_ip` (spec/40_operands_and_sequencer.md R71). -/
def nextIp (ip : Int) (n : Nat) : IpReq → Int
  | .advance => ip + (n : Int) + 1
  | .jump target => target
  | .halt => ip

/-- `status` after a request: HALT ends the run (spec/40_operands_and_sequencer.md R60). -/
def nextStatus (status : RunStatus) : IpReq → RunStatus
  | .advance => status
  | .jump _ => status
  | .halt => .halted

/-- The executor's output (spec/00_scope.md R18): at most one tape write, an output, a consumption of the input and
one ip request. -/
structure Effect where
  write : Option (Int × Int)
  out : Option Int
  consume : Bool
  req : IpReq
  deriving DecidableEq, Repr

/-- The part of the commit phase that follows the tape write (R60): the output and input registers, `ip`, `status`,
`steps`. -/
def State.commitRegisters (s : State) (n : Nat) (e : Effect) : State :=
  { s with
    outValue := e.out.getD s.outValue
    outValid := s.outValid || e.out.isSome
    inValid := s.inValid && !e.consume
    ip := nextIp s.ip n e.req
    status := nextStatus s.status e.req
    steps := s.steps + 1 }

/-- The commit phase (R60) of an instruction of `n` operands. -/
def State.commit (s : State) (n : Nat) (e : Effect) : Except Cause State :=
  match e.write with
  | none => .ok (s.commitRegisters n e)
  | some (a, v) =>
    match s.memWrite a v with
    | .error c => .error c
    | .ok s' => .ok (s'.commitRegisters n e)

/-- A step's end (R62): either the whole effect is committed, or the failing check is raised and nothing else
happens. -/
def State.finish (s : State) (n : Nat) (r : Except Cause Effect) : Host.Outcome State Fault Refusal :=
  match r with
  | .error c => .next (s.raise c)
  | .ok e =>
    match s.commit n e with
    | .error c => .next (s.raise c)
    | .ok t => .next t

end Sys2Proof.Machine
end

