-- ==== Sys2Proof/Machine/Flags.lean ====
section
/-! DEFINITION. What an instruction computes from its operand values: the checked sum and product, the comparison
results (written to a tape cell, there are no condition codes: spec/10_state.md R29) and the truth of a condition. The
two one-bit registers `in_valid` and `out_valid` change in the commit phase (`State.commitRegisters`). -/

namespace Sys2Proof.Machine

/-- A mathematical result for a tape cell of `W` bits, or Overflow (spec/00_scope.md R15, spec/41_arith_compare.md R77). -/
def checkedResult (W : Nat) (r : Int) : Except Cause Int := if InRange W r then .ok r else .error .overflow

/-- The result of ADD (R73). -/
def addResult (W : Nat) (x y : Int) : Except Cause Int := checkedResult W (x + y)

/-- The result of MUL (R74). -/
def mulResult (W : Nat) (x y : Int) : Except Cause Int := checkedResult W (x * y)

/-- The result of LT, a signed comparison (R75). -/
def ltResult (x y : Int) : Int := if x < y then 1 else 0

/-- The result of EQ (R76). -/
def eqResult (x y : Int) : Int := if x = y then 1 else 0

/-- A condition is true when it is not 0, negative values included (spec/43_control.md R80). -/
def conditionTrue (v : Int) : Bool := decide (v ≠ 0)

end Sys2Proof.Machine
end

