-- ==== Sys2Proof/Machine/Operands.lean ====
section
/-! DEFINITION. The operand resolver (spec/40_operands_and_sequencer.md R68 to R70): the two read forms and the write
form, resolved in increasing order of the operand number. -/

namespace Sys2Proof.Machine

/-- `resolve(r, m, p)` (R68): position dereferences the tape, immediate is the literal. -/
def State.readOperand (s : State) : Operand → Except Cause Int
  | .position p => s.memRead p
  | .immediate v => .ok v

/-- `resolve(w, 0, p)` (R69): the address itself, bounds-checked; the cell is not read. -/
def State.destination (s : State) (p : Int) : Except Cause Int :=
  if s.InBounds p then .ok p else .error (.outOfBounds p)

/-- Two read operands and a destination, in that order (R70). -/
def State.resolveRRW (s : State) (a b : Operand) (dst : Int) : Except Cause (Int × Int × Int) :=
  match s.readOperand a with
  | .error c => .error c
  | .ok x =>
    match s.readOperand b with
    | .error c => .error c
    | .ok y =>
      match s.destination dst with
      | .error c => .error c
      | .ok d => .ok (x, y, d)

/-- Two read operands, in order (R70). -/
def State.resolveRR (s : State) (a b : Operand) : Except Cause (Int × Int) :=
  match s.readOperand a with
  | .error c => .error c
  | .ok x =>
    match s.readOperand b with
    | .error c => .error c
    | .ok y => .ok (x, y)

end Sys2Proof.Machine
end

