-- ==== Sys2Proof/Machine/Arith.lean ====
section
/-! DEFINITION. ADD, MUL, LT and EQ (spec/41_arith_compare.md R73 to R76). -/

namespace Sys2Proof.Machine

/-- The effect of R73 to R76: resolve `a`, `b` and `dst`, compute the result from the two values, write it to `dst`,
advance. -/
def State.binaryEffect (s : State) (result : Int → Int → Except Cause Int) (a b : Operand) (dst : Int) :
    Except Cause Effect :=
  match s.resolveRRW a b dst with
  | .error c => .error c
  | .ok (x, y, d) =>
    match result x y with
    | .error c => .error c
    | .ok r => .ok { write := some (d, r), out := none, consume := false, req := .advance }

/-- ADD (R73). -/
def execAdd (a b : Operand) (dst : Int) (s : State) : Host.Outcome State Fault Refusal :=
  s.finish Op.add.count (s.binaryEffect (addResult s.config.width) a b dst)

/-- MUL (R74). -/
def execMul (a b : Operand) (dst : Int) (s : State) : Host.Outcome State Fault Refusal :=
  s.finish Op.mul.count (s.binaryEffect (mulResult s.config.width) a b dst)

/-- LT (R75). -/
def execLt (a b : Operand) (dst : Int) (s : State) : Host.Outcome State Fault Refusal :=
  s.finish Op.lt.count (s.binaryEffect (fun x y => .ok (ltResult x y)) a b dst)

/-- EQ (R76). -/
def execEq (a b : Operand) (dst : Int) (s : State) : Host.Outcome State Fault Refusal :=
  s.finish Op.eq.count (s.binaryEffect (fun x y => .ok (eqResult x y)) a b dst)

end Sys2Proof.Machine
end

