-- ==== Sys2Proof/Machine/Control.lean ====
section
/-! DEFINITION. JIT, JIF and HALT (spec/43_control.md R80 to R82). -/

namespace Sys2Proof.Machine

/-- The effect of R80 and R81: resolve the condition and the target, jump when `taken` holds of the condition. The
target is not checked here but by the next fetch (spec/40_operands_and_sequencer.md R71). -/
def State.branchEffect (s : State) (taken : Int → Bool) (val target : Operand) : Except Cause Effect :=
  match s.resolveRR val target with
  | .error c => .error c
  | .ok (v, t) => .ok { write := none, out := none, consume := false, req := if taken v then .jump t else .advance }

/-- The effect of R82 and R87: the run ends, `ip` keeps the address of the word. -/
def haltEffect : Except Cause Effect := .ok { write := none, out := none, consume := false, req := .halt }

/-- JIT (R80). -/
def execJit (val target : Operand) (s : State) : Host.Outcome State Fault Refusal :=
  s.finish Op.jit.count (s.branchEffect conditionTrue val target)

/-- JIF (R81). -/
def execJif (val target : Operand) (s : State) : Host.Outcome State Fault Refusal :=
  s.finish Op.jif.count (s.branchEffect (fun v => !conditionTrue v) val target)

/-- HALT (R82). -/
def execHalt (s : State) : Host.Outcome State Fault Refusal := s.finish Op.halt.count haltEffect

end Sys2Proof.Machine
end

