-- ==== Sys2Proof/Machine/Io.lean ====
section
/-! DEFINITION. IN and OUT (spec/42_io.md R78, R79). -/

namespace Sys2Proof.Machine

/-- The effect of IN (R78): the destination is resolved first, then the pending input is taken and consumed. -/
def State.inputEffect (s : State) (dst : Int) : Except Cause Effect :=
  match s.destination dst with
  | .error c => .error c
  | .ok d =>
    if s.inValid then .ok { write := some (d, s.inValue), out := none, consume := true, req := .advance }
    else .error .inputExhausted

/-- The effect of OUT (R79). -/
def State.outputEffect (s : State) (val : Operand) : Except Cause Effect :=
  match s.readOperand val with
  | .error c => .error c
  | .ok v => .ok { write := none, out := some v, consume := false, req := .advance }

/-- IN (R78). -/
def execInput (dst : Int) (s : State) : Host.Outcome State Fault Refusal := s.finish Op.input.count (s.inputEffect dst)

/-- OUT (R79). -/
def execOutput (val : Operand) (s : State) : Host.Outcome State Fault Refusal :=
  s.finish Op.output.count (s.outputEffect val)

end Sys2Proof.Machine
end

