-- ==== Sys2Proof/Machine/Restricted.lean ====
section
/-! DEFINITION. The restricted-mode instructions (spec/44_restricted_mode.md R85 to R87): every operand an address. -/

namespace Sys2Proof.Machine

/-- ADD in restricted mode (R85). -/
def execAddRestricted (p₁ p₂ dst : Int) (s : State) : Host.Outcome State Fault Refusal :=
  s.finish Op.addRestricted.count (s.binaryEffect (addResult s.config.width) (.position p₁) (.position p₂) dst)

/-- MUL in restricted mode (R86). -/
def execMulRestricted (p₁ p₂ dst : Int) (s : State) : Host.Outcome State Fault Refusal :=
  s.finish Op.mulRestricted.count (s.binaryEffect (mulResult s.config.width) (.position p₁) (.position p₂) dst)

/-- HALT in restricted mode (R87). -/
def execHaltRestricted (s : State) : Host.Outcome State Fault Refusal := s.finish Op.haltRestricted.count haltEffect

end Sys2Proof.Machine
end

