-- ==== Sys2Proof/Machine/Dispatch.lean ====
section
/-! DEFINITION. One arm for each constructor of `Instr`, each one call of its meaning. -/

namespace Sys2Proof.Machine

/-- The executor: operand resolution, execution and commit of a decoded instruction (spec/40_operands_and_sequencer.md
R60). Status, ceiling, fetch and decode come before it, in `step`. -/
def exec (i : Instr) (s : State) : Host.Outcome State Fault Refusal :=
  match i with
  | .add a b dst => Sys2Proof.Machine.execAdd a b dst s
  | .mul a b dst => Sys2Proof.Machine.execMul a b dst s
  | .input dst => Sys2Proof.Machine.execInput dst s
  | .output val => Sys2Proof.Machine.execOutput val s
  | .jit val target => Sys2Proof.Machine.execJit val target s
  | .jif val target => Sys2Proof.Machine.execJif val target s
  | .lt a b dst => Sys2Proof.Machine.execLt a b dst s
  | .eq a b dst => Sys2Proof.Machine.execEq a b dst s
  | .halt => Sys2Proof.Machine.execHalt s
  | .addRestricted p₁ p₂ dst => Sys2Proof.Machine.execAddRestricted p₁ p₂ dst s
  | .mulRestricted p₁ p₂ dst => Sys2Proof.Machine.execMulRestricted p₁ p₂ dst s
  | .haltRestricted => Sys2Proof.Machine.execHaltRestricted s

end Sys2Proof.Machine
end

