-- ==== Sys2Proof/Machine/Fetch.lean ====
section
/-! DEFINITION. The first half of a step: the ceiling check, the fetch of the word, its decoding and the fetch of the
operand cells, in the order of spec/40_operands_and_sequencer.md R60; and how a program's cells are placed. -/

namespace Sys2Proof.Machine

/-- `CEILING != none and steps >= CEILING` (R65). -/
def State.ceilingReached (s : State) : Bool :=
  match s.config.ceiling with
  | none => false
  | some c => decide (c ≤ s.steps)

/-- The instruction at `ip`, read from the live tape, or the first check that fails (R60, R65 to R67;
spec/60_exceptions.md R96, items 1 to 4). -/
def State.fetchInstr (s : State) : Except Cause Instr :=
  if s.ceilingReached then .error .runawayProgram
  else
    match s.memRead s.ip with
    | .error c => .error c
    | .ok w =>
      match decodeWord s.config.mode w with
      | .error r => .error (.illegalOpcode r w)
      | .ok d => d.build fun k => s.memRead (s.ip + (k : Int))

/-- The memory with `cells` at the addresses from `a` on. -/
def Memory.setCells (m : Memory) : Nat → List Int → Memory
  | _, [] => m
  | a, v :: vs => (Memory.setCells m (a + 1) vs).set a v

/-- Where an instruction of four cells can be placed for the next fetch: `ip` itself where the cells fit below the
greatest LEN (spec/00_scope.md R7), else address 0. -/
def State.fetchSite (s : State) : Nat :=
  if 0 ≤ s.ip ∧ s.ip + 8 ≤ halfRange s.config.width then s.ip.toNat else 0

/-- The state loaded from outside so that the next step runs the instruction of `cells`: the cells stand at the fetch
site, LEN reaches past them, the run is Running with no fault, and a ceiling already reached is lifted. Nothing else
changes. DESIGN CHOICE, safe: it stands for the host's launch, no step does it (notes/assumptions/4.md). -/
def State.loadCells (s : State) (cells : List Int) : State :=
  { s with
    config := { s.config with
      len := max s.config.len (s.fetchSite + 4)
      ceiling := if s.ceilingReached then none else s.config.ceiling }
    tape := s.tape.setCells s.fetchSite cells
    ip := (s.fetchSite : Int)
    status := .running
    fault := none }

end Sys2Proof.Machine
end

