-- ==== Sys2Proof/Machine/Step.lean ====
section
/-! DEFINITION. One step of the block (spec/40_operands_and_sequencer.md R60). -/

namespace Sys2Proof.Machine

/-- `step()` (R60). Only a running block has a step (R61); a failing check is raised (spec/00_scope.md R14). -/
def step (s : State) : Host.Outcome State Fault Refusal :=
  match s.status with
  | .running =>
    match s.fetchInstr with
    | .error c => .next (s.raise c)
    | .ok i => exec i s
  | .halted => .fault .notRunning
  | .faulted _ => .fault .notRunning

/-- The state in which the next step runs the instruction whose bits are `w`, numbered as spec/opcode_table.json
numbers them (notes/assumptions/4.md, 5.md). -/
def State.withFetchWord (s : State) (nbits w : Nat) : State := s.loadCells (tableCells s.config.width nbits w)

end Sys2Proof.Machine
end

