-- ==== Sys2Proof/Machine/Result.lean ====
section
/-! DEFINITION. The result surface, what the host reads at a terminal status (spec/60_exceptions.md R97). -/

namespace Sys2Proof.Machine

/-- What the host is given: a value, or an error kind. -/
inductive Result where
  | ok (v : Int)
  | error (kind : FaultKind)
  deriving DecidableEq, Repr

/-- The restricted-mode result `tape[0]`; none on a tape without a cell 0, which no restricted HALT leaves
(DESIGN CHOICE, safe: notes/assumptions/10.md). -/
def State.cellZero (s : State) : Option Result := if s.InBounds 0 then some (.ok (s.cell 0)) else none

/-- `result()` (R97); none while the run is not over (DESIGN CHOICE, safe: notes/assumptions/10.md). -/
def State.result (s : State) : Option Result :=
  match s.status with
  | .running => none
  | .faulted kind => some (.error kind)
  | .halted =>
    match s.config.mode with
    | .restricted => s.cellZero
    | .full => if s.outValid then some (.ok s.outValue) else some (.error .noOutput)

end Sys2Proof.Machine
end

