-- ==== Sys2Proof/Machine/Caller.lean ====
section
/-! DEFINITION. The host's side, outside the block (spec/00_scope.md R5): parsing a program text, patching cells,
launching a run, running it to its end, and the two callers (spec/70_reset_and_hazards.md R104 to R107). No step uses
anything of this file. -/

namespace Sys2Proof.Machine

/-- The tokens of a text, separated by commas. -/
def splitCommas : List Char → List (List Char)
  | [] => [[]]
  | c :: cs =>
    if c = ',' then [] :: splitCommas cs
    else
      match splitCommas cs with
      | [] => [[c]]
      | t :: ts => (c :: t) :: ts

/-- "whitespace/newlines" (R104). DESIGN CHOICE: space, tab, line feed, carriage return (notes/assumptions/11.md). -/
def isBlank (c : Char) : Bool := c = ' ' || c = '\t' || c = '\n' || c = '\r'

/-- A token without the blanks around it. -/
def trimBlanks (t : List Char) : List Char := ((t.dropWhile isBlank).reverse.dropWhile isBlank).reverse

/-- The value of a decimal digit. -/
def digitValue (c : Char) : Option Nat := if 48 ≤ c.toNat ∧ c.toNat ≤ 57 then some (c.toNat - 48) else none

/-- The number that decimal digits continue from `acc`. -/
def parseDigits : Nat → List Char → Option Nat
  | acc, [] => some acc
  | acc, c :: cs =>
    match digitValue c with
    | none => none
    | some v => parseDigits (10 * acc + v) cs

/-- A natural number of one digit or more. -/
def parseNatural : List Char → Option Nat
  | [] => none
  | c :: cs => parseDigits 0 (c :: cs)

/-- A signed decimal integer. DESIGN CHOICE: the only sign is `-` (notes/assumptions/11.md). -/
def parseInteger : List Char → Option Int
  | [] => none
  | c :: cs =>
    if c = '-' then (parseNatural cs).map fun n => -(n : Int)
    else (parseNatural (c :: cs)).map fun n => (n : Int)

/-- The value of a token: a malformed one, or one outside `Int_W`, is a ParseError (spec/60_exceptions.md R94). -/
def parseToken (W : Nat) (t : List Char) : Except FaultKind Int :=
  match parseInteger t with
  | none => .error .parseError
  | some v => if InRange W v then .ok v else .error .parseError

/-- The values of a list of tokens, empty ones skipped. -/
def parseTokens (W : Nat) : List (List Char) → Except FaultKind (List Int)
  | [] => .ok []
  | t :: ts =>
    match trimBlanks t with
    | [] => parseTokens W ts
    | c :: cs =>
      match parseToken W (c :: cs) with
      | .error k => .error k
      | .ok v =>
        match parseTokens W ts with
        | .error k => .error k
        | .ok vs => .ok (v :: vs)

/-- Launch item 1 (R104): the program text as a list of values of `Int_W`. -/
def parseProgram (W : Nat) (text : List Char) : Except FaultKind (List Int) := parseTokens W (splitCommas text)

/-- Launch item 3 (R104): the patches applied in order; none if a patched cell does not exist, the host's error
(notes/assumptions/12.md). -/
def patchCells : List (Nat × Int) → List Int → Option (List Int)
  | [], program => some program
  | (a, v) :: patches, program =>
    if a < program.length then patchCells patches (program.set a v) else none

/-- Launch item 5 (R104): the reset state, or no run when the arguments break a launch precondition
(notes/assumptions/15.md). -/
def startRun (l : Launch) : Option State := if l.wf then some (State.launch l) else none

/-- `k` steps, or as many as the block has. -/
def State.advance : Nat → State → State
  | 0, s => s
  | k + 1, s =>
    match step s with
    | .next t => State.advance k t
    | .fault _ => s
    | .refused _ => s

/-- What a run with a numeric ceiling gives the host: it is over after at most CEILING + 1 steps, the last of them a
fault (R111). None for a launch that is refused or has no ceiling (notes/assumptions/13.md). -/
def runResult (l : Launch) : Option Result :=
  match l.ceiling with
  | none => none
  | some c =>
    match startRun l with
    | none => none
    | some s => (State.advance (c + 1) s).result

/-- The single input/output caller (R107): one full-mode run of its own copy of the program. -/
def singleInputOutput (W ceiling : Nat) (program : List Int) (input : Int) : Option Result :=
  runResult { width := W, mode := .full input, ceiling := some ceiling, program := program }

/-- One run of patch-and-search (R106): cells 1 and 2 patched, restricted mode. -/
def patchedRun (W ceiling : Nat) (base : List Int) (first second : Int) : Option Result :=
  match patchCells [(1, first), (2, second)] base with
  | none => none
  | some program => runResult { width := W, mode := .restricted, ceiling := some ceiling, program := program }

/-- The values `lo` to `hi`. -/
def interval (lo hi : Int) : List Int := (List.range (hi - lo + 1).toNat).map fun k => lo + (k : Int)

/-- The patch-and-search caller (R106): `100*first + second` of the first match, the outer value varying slowest.
DESIGN CHOICE: none when no pair matches (notes/assumptions/13.md). -/
def patchAndSearch (W ceiling : Nat) (base : List Int) (lo hi target : Int) : Option Int :=
  (interval lo hi).findSome? fun first =>
    (interval lo hi).findSome? fun second =>
      if patchedRun W ceiling base first second = some (.ok target) then some (100 * first + second) else none

end Sys2Proof.Machine
end

