-- ==== Sys2Proof/Safety.lean ====
section
/-! DEFINITION. The terms claims use: what a read operand denotes, what an instruction writes, the invariant of the
machine, and what a safe run is. After a fault only `status` and `fault` carry a meaning (spec/60_exceptions.md R95),
so the invariant says nothing of the spec's tape, registers, `ip` or `steps` in a Faulted state. -/

namespace Sys2Proof

/-- The address a read operand dereferences, if it dereferences one (spec/40_operands_and_sequencer.md R68). -/
def Operand.addresses : Operand → List Int
  | .position p => [p]
  | .immediate _ => []

/-- The addresses that resolving the operands of an instruction checks, in increasing operand number (R68 to R70). -/
def Instr.checkedAddresses : Instr → List Int
  | .add a b dst | .mul a b dst | .lt a b dst | .eq a b dst => a.addresses ++ b.addresses ++ [dst]
  | .input dst => [dst]
  | .output val => val.addresses
  | .jit val target | .jif val target => val.addresses ++ target.addresses
  | .addRestricted p₁ p₂ dst | .mulRestricted p₁ p₂ dst => [p₁, p₂, dst]
  | .halt | .haltRestricted => []

/-- The cell an instruction writes when it completes, if any (column `operands` of spec/30_encoding.md R45). -/
def Instr.destination : Instr → Option Int
  | .add _ _ dst | .mul _ _ dst | .lt _ _ dst | .eq _ _ dst => some dst
  | .input dst => some dst
  | .addRestricted _ _ dst | .mulRestricted _ _ dst => some dst
  | .output _ | .jit _ _ | .jif _ _ | .halt | .haltRestricted => none

end Sys2Proof

namespace Sys2Proof.Machine

/-- The operand denotes the value `x` in `s` (spec/40_operands_and_sequencer.md R68): the literal, or the value of an
in-bounds cell. -/
def State.Denotes (s : State) (o : Operand) (x : Int) : Prop :=
  match o with
  | .immediate v => x = v
  | .position p => s.InBounds p ∧ x = s.cell p

/-- The value `v` is written to cell `dst` and every other cell keeps its value. -/
def State.WritesOnly (s t : State) (dst v : Int) : Prop :=
  t.cell dst = v ∧ ∀ a : Nat, a ≠ dst.toNat → t.tape.get a = s.tape.get a

/-- Every cell keeps its value. -/
def State.SameTape (s t : State) : Prop := ∀ a : Nat, t.tape.get a = s.tape.get a

/-- `in_valid`, `in_value`, `out_value` and `out_valid` are as before. -/
def State.SameIo (s t : State) : Prop :=
  t.inValid = s.inValid ∧ t.inValue = s.inValue ∧ t.outValue = s.outValue ∧ t.outValid = s.outValid

/-- The configuration, `status` and `fault` are as before. -/
def State.SameControl (s t : State) : Prop :=
  t.config = s.config ∧ t.status = s.status ∧ t.fault = s.fault

/-- The state is Faulted(kind) with the record `(kind, ip, info)` (spec/00_scope.md R14); the only two fields of a
faulted run a claim may use (spec/60_exceptions.md R95). -/
def State.FaultedWith (t : State) (kind : FaultKind) (ip : Int) (info : FaultInfo) : Prop :=
  t.status = .faulted kind ∧ t.fault = some { kind := kind, faultIp := ip, info := info }

/-- A step can begin: the run is Running (spec/40_operands_and_sequencer.md R61) and below its ceiling (R65). -/
def State.Ready (s : State) : Prop := s.status = .running ∧ ∀ c, s.config.ceiling = some c → s.steps < c

/-- The cells from `ip` on are in bounds and hold `cells`. -/
def State.CellsAtIp (s : State) (cells : List Int) : Prop :=
  ∀ (k : Nat) (v : Int), cells[k]? = some v → s.InBounds (s.ip + (k : Int)) ∧ s.cell (s.ip + (k : Int)) = v

/-- The instruction `i` stands at `ip`: it is one of the run mode's, and its cells stand there whole. -/
def State.InstrAtIp (s : State) (i : Instr) : Prop := i.op.runMode = s.config.mode ∧ s.CellsAtIp (encode i)

/-- The status is a fault. -/
def RunStatus.isFaulted : RunStatus → Bool
  | .faulted _ => true
  | _ => false

/-- `p` is the first of the addresses that lies outside the tape. -/
def State.FirstOutOfBounds (s : State) : List Int → Int → Prop
  | [], _ => False
  | a :: rest, p => if s.InBounds a then s.FirstOutOfBounds rest p else p = a

/-- Every listed cell of the tape lies below LEN. -/
def State.tapeInLen (s : State) : Bool := s.tape.all fun c => decide (c.1 < s.config.len)

/-- `info` is what its kind records, and the kind is one a step raises (spec/60_exceptions.md R88): NoOutput and
ParseError are not. -/
def FaultRecord.wf (r : FaultRecord) : Bool :=
  match r.kind, r.info with
  | .illegalOpcode, .word _ _ => true
  | .outOfBounds, .address _ => true
  | .inputExhausted, .empty => true
  | .runawayProgram, .empty => true
  | .overflow, .empty => true
  | _, _ => false

/-- `status` and `fault` agree: a record exists exactly in a Faulted state, and it has the status's kind
(spec/10_state.md R25, R26). -/
def State.recordAgrees (s : State) : Prop :=
  match s.status, s.fault with
  | .faulted k, some r => r.kind = k ∧ r.wf = true
  | .faulted _, none => False
  | _, some _ => False
  | _, none => True

/-- What holds of the values of a state that is not Faulted. -/
structure State.ValuesOk (s : State) : Prop where
  /-- Every cell is a value of `Int_W` (spec/10_state.md R19). -/
  cells : ∀ a : Nat, InRange s.config.width (s.tape.get a)
  /-- `ip` is a value of `Int_W` (R21). -/
  ip : InRange s.config.width s.ip
  /-- `in_value` and `out_value` are values of `Int_W` (R22, R23). -/
  io : InRange s.config.width s.inValue ∧ InRange s.config.width s.outValue
  /-- Without an OUT, `out_value` is its reset value (R23, R24). -/
  noOutput : s.outValid = false → s.outValue = 0
  /-- In restricted mode the input and output registers are unused (R22, spec/44_restricted_mode.md R84). -/
  restrictedIo : s.config.mode = .restricted → s.inValid = false ∧ s.inValue = 0 ∧ s.outValid = false
  /-- At most CEILING instructions have completed (spec/40_operands_and_sequencer.md R65). -/
  steps : ∀ c, s.config.ceiling = some c → s.steps ≤ c
  /-- A halted run's `ip` is the address of a HALT word on the tape (R71, spec/43_control.md R82). -/
  halted : s.status = .halted → s.InBounds s.ip ∧ ∃ d, decodeWord s.config.mode (s.cell s.ip) = .ok d ∧ d.op.number = 99

/-- The invariant of the machine. -/
structure State.Inv (s : State) : Prop where
  /-- R6 and R7. -/
  config : s.config.wf = true
  /-- The tape is in canonical form, and no cell is listed at or beyond LEN. -/
  tape : s.tape.wf = true ∧ s.tapeInLen = true
  /-- `status` and `fault` agree. -/
  record : s.recordAgrees
  /-- Outside Faulted states the values are in range. -/
  values : s.status.isFaulted = false → s.ValuesOk

/-- `t` is a state that some number of steps leads to from `s`. -/
inductive State.Reaches (s : State) : State → Prop where
  | refl : State.Reaches s s
  | tail {t u : State} : State.Reaches s t → step t = .next u → State.Reaches s u

/-- A safe run: no step of it ends Faulted. -/
def State.SafeRun (s : State) : Prop := ∀ t, s.Reaches t → t.status.isFaulted = false

end Sys2Proof.Machine
end

