-- ==== Sys2Proof/Certificates/Slice0/Obligations.lean ====
section
/-! DEFINITION. The statements for the provers, each a rule of spec/ or derived from the rules its docstring names. A
claim about a Faulted state speaks only of `status`, `fault` and the configuration (spec/60_exceptions.md R95,
spec/93_implementation_defined.md). -/

open Sys2Proof Sys2Proof.Machine

/-! ### Encoding -/

/-- R43, R45, R54, R55, R58: decoding the cells of a well-formed instruction gives it back, with every operand value,
and leaves the cells that follow. -/
def Obligations.DecodeGivesBackEncodedInstruction : Prop :=
  ∀ (W : Nat) (m : RunMode) (i : Instr) (rest : List Int),
    i.wellFormed W m = true → decode m (encode i ++ rest) = .ok (i, rest)

/-- R43 to R55: a list of cells that decodes is the encoding of the instruction it decodes to, followed by the rest, and
the instruction is one of the run mode's: no word has two meanings and no digit is dropped. -/
def Obligations.DecodedCellsAreTheEncoding : Prop :=
  ∀ (m : RunMode) (cells rest : List Int) (i : Instr),
    decode m cells = .ok (i, rest) → cells = encode i ++ rest ∧ i.op.runMode = m

/-- R50 to R54: the full-mode decoder reports the first failing check, in the order negative word, opcode, mode digits,
destination mode, excess digits, and otherwise gives the operation and its modes. -/
def Obligations.FullDecoderReportsFirstFailingCheck : Prop :=
  ∀ w : Int,
    (w < 0 → decodeWord .full w = .error .negativeWord) ∧
    (0 ≤ w → (∀ op : Op, op.runMode = .full → w.toNat % 100 ≠ op.number) →
      decodeWord .full w = .error .unknownOpcode) ∧
    (∀ op : Op, op.runMode = .full → 0 ≤ w → w.toNat % 100 = op.number →
      ((∃ k kind, op.kinds[k]? = some kind ∧ 2 ≤ digit (k + 2) w.toNat) →
        decodeWord .full w = .error .badMode) ∧
      ((∀ k kind, op.kinds[k]? = some kind → digit (k + 2) w.toNat < 2) →
        ((∃ k, op.kinds[k]? = some .write ∧ digit (k + 2) w.toNat = 1) →
          decodeWord .full w = .error .immediateDestination) ∧
        ((∀ k, op.kinds[k]? = some .write → digit (k + 2) w.toNat = 0) →
          (w.toNat / 10 ^ (op.count + 2) ≠ 0 → decodeWord .full w = .error .excessDigits) ∧
          (w.toNat / 10 ^ (op.count + 2) = 0 →
            decodeWord .full w =
              .ok { op := op
                    m₁ := if digit 2 w.toNat = 1 then .immediate else .position
                    m₂ := if digit 3 w.toNat = 1 then .immediate else .position }))))

/-- R54: the legal full-mode words are exactly these 28. -/
def Obligations.LegalFullModeWordsAreTwentyEight : Prop :=
  ∀ w : Int, (∃ d, decodeWord .full w = .ok d) ↔
    w ∈ ([1, 101, 1001, 1101, 2, 102, 1002, 1102, 3, 4, 104, 5, 105, 1005, 1105, 6, 106, 1006, 1106,
      7, 107, 1007, 1107, 8, 108, 1008, 1108, 99] : List Int)

/-- R55: in restricted mode the words 1, 2 and 99 are ADD, MUL and HALT with every operand in mode 0, and every other
word is illegal with reason UnknownOpcode and faults with IllegalOpcode. -/
def Obligations.RestrictedModeAcceptsOnlyThreeWords : Prop :=
  (decodeWord .restricted 1 = .ok { op := .addRestricted, m₁ := .position, m₂ := .position } ∧
    decodeWord .restricted 2 = .ok { op := .mulRestricted, m₁ := .position, m₂ := .position } ∧
    decodeWord .restricted 99 = .ok { op := .haltRestricted, m₁ := .position, m₂ := .position }) ∧
  ∀ w : Int, w ≠ 1 → w ≠ 2 → w ≠ 99 →
    decodeWord .restricted w = .error .unknownOpcode ∧
    ∀ s : State, s.Ready → s.config.mode = .restricted → s.InBounds s.ip → s.cell s.ip = w →
      ∃ t, step s = .next t ∧ t.FaultedWith .illegalOpcode s.ip (.word .unknownOpcode w)

/-- R50: a negative instruction word is illegal in full mode, and the step faults. -/
def Obligations.NegativeWordFaults : Prop :=
  ∀ w : Int, w < 0 →
    decodeWord .full w = .error .negativeWord ∧
    ∀ s : State, s.Ready → s.config.mode = .full → s.InBounds s.ip → s.cell s.ip = w →
      ∃ t, step s = .next t ∧ t.FaultedWith .illegalOpcode s.ip (.word .negativeWord w)

/-- R51: a word whose opcode is 0 or 9 to 98 is illegal in full mode, and the step faults. -/
def Obligations.UnknownOpcodeFaults : Prop :=
  ∀ w : Int, 0 ≤ w → (w % 100 = 0 ∨ (9 ≤ w % 100 ∧ w % 100 ≤ 98)) →
    decodeWord .full w = .error .unknownOpcode ∧
    ∀ s : State, s.Ready → s.config.mode = .full → s.InBounds s.ip → s.cell s.ip = w →
      ∃ t, step s = .next t ∧ t.FaultedWith .illegalOpcode s.ip (.word .unknownOpcode w)

/-- R43, R45, R46: a few words written out from the digits A B C D E of the spec decode to the instruction they stand
for. Source: the listings of spec/95_test_vectors.md. -/
def Obligations.SomeWordsDecodeAsListed : Prop :=
  decode .full [1002, 21, 125, 20] = .ok (.mul (.position 21) (.immediate 125) 20, []) ∧
  decode .full [107, 8, 21, 20] = .ok (.lt (.immediate 8) (.position 21) 20, []) ∧
  decode .full [1005, 20, 22, 7] = .ok (.jit (.position 20) (.immediate 22), [7]) ∧
  decode .full [104, 999] = .ok (.output (.immediate 999), []) ∧
  decode .restricted [1, 5, 6, 0, 99] = .ok (.addRestricted 5 6 0, [99])

/-! ### The sequencer -/

/-- R60: when the cells at `ip` decode to an instruction, the step of a running block below its ceiling is that
instruction's execution. -/
def Obligations.StepRunsDecodedInstruction : Prop :=
  ∀ (s : State) (cells rest : List Int) (i : Instr),
    s.Ready → s.CellsAtIp cells → decode s.config.mode cells = .ok (i, rest) → step s = exec i s

/-- R43, R57, R60: when the encoding of an instruction of the run mode stands at `ip`, the step executes it. -/
def Obligations.StepRunsEncodedInstruction : Prop :=
  ∀ (s : State) (i : Instr), s.Ready → s.InstrAtIp i → step s = exec i s

/-- R61: a block whose status is Halted or Faulted has no step, and its state does not change again. -/
def Obligations.TerminalBlockHasNoStep : Prop :=
  ∀ s : State, s.status ≠ .running → step s = .fault .notRunning ∧ ∀ k, s.advance k = s

/-- R65: a step at the ceiling raises RunawayProgram, and no other step does; so at most CEILING instructions
complete, and a run whose CEILING-th instruction is HALT ends Halted. -/
def Obligations.CeilingStopsTheRun : Prop :=
  (∀ (s : State) (c : Nat), s.status = .running → s.config.ceiling = some c → c ≤ s.steps →
    ∃ t, step s = .next t ∧ t.FaultedWith .runawayProgram s.ip .empty) ∧
  (∀ s t : State, s.Ready → step s = .next t → t.status ≠ .faulted .runawayProgram) ∧
  (∀ (l : Launch) (c : Nat) (t : State), l.ceiling = some c → (State.launch l).Reaches t →
    t.status.isFaulted = false → t.steps ≤ c) ∧
  (∀ (s : State) (i : Instr) (c : Nat), s.Ready → s.config.ceiling = some c → s.steps + 1 = c →
    s.InstrAtIp i → (i = .halt ∨ i = .haltRestricted) →
    ∃ t, step s = .next t ∧ t.status = .halted ∧ t.steps = c)

/-- R66: the fetch reads the live cell at `ip`, and raises OutOfBounds(ip) when `ip` is outside the tape. -/
def Obligations.FetchOutsideTheTapeFaults : Prop :=
  ∀ s : State, s.Ready →
    (s.ip < 0 ∨ (s.config.len : Int) ≤ s.ip → ∃ t, step s = .next t ∧ t.FaultedWith .outOfBounds s.ip (.address s.ip)) ∧
    (s.InBounds s.ip → s.memRead s.ip = .ok (s.tape.get s.ip.toNat))

/-- R67: the operand cells of a legal word are fetched in increasing order, and the first one outside the tape raises
OutOfBounds of its address; an illegal word faults before any operand cell is read, whatever LEN is. -/
def Obligations.OperandCellOutsideTheTapeFaults : Prop :=
  ∀ s : State, s.Ready → s.InBounds s.ip →
    (∀ (d : Decoded) (k : Nat), decodeWord s.config.mode (s.cell s.ip) = .ok d → 1 ≤ k → k ≤ d.op.count →
      (∀ j : Nat, 1 ≤ j → j < k → s.ip + (j : Int) < (s.config.len : Int)) →
      (s.config.len : Int) ≤ s.ip + (k : Int) →
      ∃ t, step s = .next t ∧ t.FaultedWith .outOfBounds s.ip (.address (s.ip + (k : Int)))) ∧
    (∀ r, decodeWord s.config.mode (s.cell s.ip) = .error r →
      ∃ t, step s = .next t ∧ t.FaultedWith .illegalOpcode s.ip (.word r (s.cell s.ip)))

/-- R14, R26, R88, R95: a step that ends Faulted records the kind of its status, the `ip` of its start and the info its
kind records. -/
def Obligations.FaultEntryWritesTheRecord : Prop :=
  ∀ (s t : State) (k : FaultKind), step s = .next t → t.status = .faulted k →
    ∃ info, t.FaultedWith k s.ip info ∧ ({ kind := k, faultIp := s.ip, info := info } : FaultRecord).wf = true

/-- R25: the transitions of the run status. A step is taken by a Running block only; it leaves it Running, or Halted when
the word at `ip` is that of HALT, or Faulted with a kind that steps raise (NoOutput and ParseError are none: R88). -/
def Obligations.RunStatusTransitions : Prop :=
  ∀ s t : State, step s = .next t →
    s.status = .running ∧
    (t.status = .running ∨
      (t.status = .halted ∧ s.InBounds s.ip ∧ s.cell s.ip = 99 ∧ t.ip = s.ip) ∨
      ∃ k, t.status = .faulted k ∧ k ≠ .noOutput ∧ k ≠ .parseError)

/-- R72: a step that does not fault adds one to `steps`, HALT's step included. -/
def Obligations.CompletedStepIsCounted : Prop :=
  ∀ s t : State, step s = .next t → t.status.isFaulted = false → t.steps = s.steps + 1

/-- R28, R33: no step changes W, MODE, CEILING or LEN. -/
def Obligations.ConfigurationIsConstant : Prop :=
  ∀ s t : State, s.Reaches t → t.config = s.config

/-- R22, R23, R24: no step sets `in_valid`, clears `out_valid` or changes `in_value`; `out_value` changes only together
with `out_valid` being set. -/
def Obligations.IoRegistersMoveOneWay : Prop :=
  ∀ s t : State, step s = .next t → t.status.isFaulted = false →
    (t.inValid = true → s.inValid = true) ∧ (s.outValid = true → t.outValid = true) ∧ t.inValue = s.inValue ∧
    (t.outValue ≠ s.outValue → t.outValid = true)

/-- R84: in restricted mode no step touches the input and output registers. -/
def Obligations.RestrictedModeLeavesIoAlone : Prop :=
  ∀ s t : State, s.config.mode = .restricted → step s = .next t → t.status.isFaulted = false → s.SameIo t

/-- R48, R84: a restricted-mode step that completes is also, MODE apart, the step the same state takes in full mode. -/
def Obligations.RestrictedStepIsAFullModeStep : Prop :=
  ∀ s t : State, s.config.mode = .restricted → step s = .next t → t.status.isFaulted = false →
    step { s with config := { s.config with mode := .full } } =
      .next { t with config := { t.config with mode := .full } }

/-! ### The instructions -/

/-- R73, R60, R71: ADD writes the sum to its destination and advances by 4. -/
def Obligations.AddCompletes : Prop :=
  ∀ (s : State) (a b : Operand) (dst x y : Int), s.status = .running → s.tape.wf = true →
    s.Denotes a x → s.Denotes b y → s.InBounds dst → InRange s.config.width (x + y) →
    ∃ t, exec (.add a b dst) s = .next t ∧ s.WritesOnly t dst (x + y) ∧ t.ip = s.ip + 4 ∧ t.steps = s.steps + 1 ∧
      s.SameIo t ∧ s.SameControl t

/-- R74, R60, R71: MUL writes the product to its destination and advances by 4. -/
def Obligations.MulCompletes : Prop :=
  ∀ (s : State) (a b : Operand) (dst x y : Int), s.status = .running → s.tape.wf = true →
    s.Denotes a x → s.Denotes b y → s.InBounds dst → InRange s.config.width (x * y) →
    ∃ t, exec (.mul a b dst) s = .next t ∧ s.WritesOnly t dst (x * y) ∧ t.ip = s.ip + 4 ∧ t.steps = s.steps + 1 ∧
      s.SameIo t ∧ s.SameControl t

/-- R75, R60, R71: LT writes 1 if the first value is less than the second, as signed integers, else 0. -/
def Obligations.LtCompletes : Prop :=
  ∀ (s : State) (a b : Operand) (dst x y : Int), s.status = .running → s.tape.wf = true →
    s.Denotes a x → s.Denotes b y → s.InBounds dst →
    ∃ t, exec (.lt a b dst) s = .next t ∧ s.WritesOnly t dst (if x < y then 1 else 0) ∧ t.ip = s.ip + 4 ∧
      t.steps = s.steps + 1 ∧ s.SameIo t ∧ s.SameControl t

/-- R76, R60, R71: EQ writes 1 if the two values are equal, else 0. -/
def Obligations.EqCompletes : Prop :=
  ∀ (s : State) (a b : Operand) (dst x y : Int), s.status = .running → s.tape.wf = true →
    s.Denotes a x → s.Denotes b y → s.InBounds dst →
    ∃ t, exec (.eq a b dst) s = .next t ∧ s.WritesOnly t dst (if x = y then 1 else 0) ∧ t.ip = s.ip + 4 ∧
      t.steps = s.steps + 1 ∧ s.SameIo t ∧ s.SameControl t

/-- R78, R60, R71: IN with an input pending writes it to its destination, consumes it and advances by 2. -/
def Obligations.InCompletes : Prop :=
  ∀ (s : State) (dst : Int), s.status = .running → s.tape.wf = true → s.InBounds dst → s.inValid = true →
    ∃ t, exec (.input dst) s = .next t ∧ s.WritesOnly t dst s.inValue ∧ t.inValid = false ∧ t.inValue = s.inValue ∧
      t.outValue = s.outValue ∧ t.outValid = s.outValid ∧ t.ip = s.ip + 2 ∧ t.steps = s.steps + 1 ∧ s.SameControl t

/-- R79, R60, R71: OUT sets `out_value` to its operand's value and `out_valid` to 1, writes no cell and advances by 2. -/
def Obligations.OutCompletes : Prop :=
  ∀ (s : State) (val : Operand) (v : Int), s.status = .running → s.Denotes val v →
    ∃ t, exec (.output val) s = .next t ∧ t.outValue = v ∧ t.outValid = true ∧ s.SameTape t ∧
      t.inValid = s.inValid ∧ t.inValue = s.inValue ∧ t.ip = s.ip + 2 ∧ t.steps = s.steps + 1 ∧ s.SameControl t

/-- R80, R60, R71: JIT goes to its target, any value at all, when the condition is not 0, and else advances by 3. -/
def Obligations.JitCompletes : Prop :=
  ∀ (s : State) (val target : Operand) (v d : Int), s.status = .running → s.Denotes val v → s.Denotes target d →
    ∃ t, exec (.jit val target) s = .next t ∧ t.ip = (if v = 0 then s.ip + 3 else d) ∧ t.steps = s.steps + 1 ∧
      s.SameTape t ∧ s.SameIo t ∧ s.SameControl t

/-- R81, R60, R71: JIF goes to its target, any value at all, when the condition is 0, and else advances by 3. -/
def Obligations.JifCompletes : Prop :=
  ∀ (s : State) (val target : Operand) (v d : Int), s.status = .running → s.Denotes val v → s.Denotes target d →
    ∃ t, exec (.jif val target) s = .next t ∧ t.ip = (if v = 0 then d else s.ip + 3) ∧ t.steps = s.steps + 1 ∧
      s.SameTape t ∧ s.SameIo t ∧ s.SameControl t

/-- R82, R87, R71, R72: HALT, in either run mode, ends the run Halted, keeps `ip` and is counted. -/
def Obligations.HaltCompletes : Prop :=
  ∀ (s : State) (i : Instr), i = .halt ∨ i = .haltRestricted → s.status = .running →
    ∃ t, exec i s = .next t ∧ t.status = .halted ∧ t.ip = s.ip ∧ t.steps = s.steps + 1 ∧ s.SameTape t ∧ s.SameIo t ∧
      t.config = s.config ∧ t.fault = s.fault

/-- R85, R60, R71: ADD of restricted mode adds the two cells its operands address. -/
def Obligations.AddRestrictedCompletes : Prop :=
  ∀ (s : State) (p₁ p₂ dst : Int), s.status = .running → s.tape.wf = true →
    s.InBounds p₁ → s.InBounds p₂ → s.InBounds dst → InRange s.config.width (s.cell p₁ + s.cell p₂) →
    ∃ t, exec (.addRestricted p₁ p₂ dst) s = .next t ∧ s.WritesOnly t dst (s.cell p₁ + s.cell p₂) ∧
      t.ip = s.ip + 4 ∧ t.steps = s.steps + 1 ∧ s.SameIo t ∧ s.SameControl t

/-- R86, R60, R71: MUL of restricted mode multiplies the two cells its operands address. -/
def Obligations.MulRestrictedCompletes : Prop :=
  ∀ (s : State) (p₁ p₂ dst : Int), s.status = .running → s.tape.wf = true →
    s.InBounds p₁ → s.InBounds p₂ → s.InBounds dst → InRange s.config.width (s.cell p₁ * s.cell p₂) →
    ∃ t, exec (.mulRestricted p₁ p₂ dst) s = .next t ∧ s.WritesOnly t dst (s.cell p₁ * s.cell p₂) ∧
      t.ip = s.ip + 4 ∧ t.steps = s.steps + 1 ∧ s.SameIo t ∧ s.SameControl t

/-- R77, R93: a sum or product outside `Int_W` raises Overflow, in both run modes. -/
def Obligations.ResultOutOfRangeOverflows : Prop :=
  ∀ (s : State) (a b : Operand) (dst x y : Int), s.Denotes a x → s.Denotes b y → s.InBounds dst →
    (¬ InRange s.config.width (x + y) →
      ∃ t, exec (.add a b dst) s = .next t ∧ t.FaultedWith .overflow s.ip .empty) ∧
    (¬ InRange s.config.width (x * y) →
      ∃ t, exec (.mul a b dst) s = .next t ∧ t.FaultedWith .overflow s.ip .empty) ∧
    (∀ p₁ p₂, a = .position p₁ → b = .position p₂ →
      (¬ InRange s.config.width (x + y) →
        ∃ t, exec (.addRestricted p₁ p₂ dst) s = .next t ∧ t.FaultedWith .overflow s.ip .empty) ∧
      (¬ InRange s.config.width (x * y) →
        ∃ t, exec (.mulRestricted p₁ p₂ dst) s = .next t ∧ t.FaultedWith .overflow s.ip .empty))

/-- R78, R91: IN without a pending input raises InputExhausted, unless its destination is outside the tape, which is
reported first. -/
def Obligations.InWithoutInputFaults : Prop :=
  ∀ (s : State) (dst : Int), s.inValid = false →
    (s.InBounds dst → ∃ t, exec (.input dst) s = .next t ∧ t.FaultedWith .inputExhausted s.ip .empty) ∧
    (¬ s.InBounds dst → ∃ t, exec (.input dst) s = .next t ∧ t.FaultedWith .outOfBounds s.ip (.address dst))

/-- R68, R69, R70, R90, R96: of the addresses an instruction's operands check, in increasing operand number, the first
one outside the tape is reported, before InputExhausted and Overflow; an immediate operand checks none. -/
def Obligations.FirstOperandOutOfBoundsIsReported : Prop :=
  ∀ (s : State) (i : Instr) (p : Int), s.FirstOutOfBounds i.checkedAddresses p →
    ∃ t, exec i s = .next t ∧ t.FaultedWith .outOfBounds s.ip (.address p)

/-- R60, R62, R63: what an instruction that completes leaves unchanged. Memory: every cell but the destination. Registers:
`in_value`, the configuration and `fault` always; `in_valid` but for IN; `out_value` and `out_valid` but for OUT;
`status` but for HALT. -/
def Obligations.CompletedInstructionFrame : Prop :=
  ∀ (s t : State) (i : Instr), s.status = .running → exec i s = .next t → t.status.isFaulted = false →
    (∀ a : Nat, (∀ d, i.destination = some d → a ≠ d.toNat) → t.tape.get a = s.tape.get a) ∧
    t.inValue = s.inValue ∧ t.config = s.config ∧ t.fault = s.fault ∧
    (i.op ≠ .input → t.inValid = s.inValid) ∧
    (i.op ≠ .output → t.outValue = s.outValue ∧ t.outValid = s.outValid) ∧
    (i.op ≠ .halt → i.op ≠ .haltRestricted → t.status = s.status)

/-- R70, R77: what ADD, MUL, LT and EQ do depends on the values of the operands, not on the modes that gave them. Of a
run that faults this says the status and the record only (R95). -/
def Obligations.EffectIndependentOfAddressingModes : Prop :=
  ∀ (s : State) (mk : Operand → Operand → Int → Instr) (a b a' b' : Operand) (dst x y : Int),
    mk = Instr.add ∨ mk = Instr.mul ∨ mk = Instr.lt ∨ mk = Instr.eq →
    s.Denotes a x → s.Denotes a' x → s.Denotes b y → s.Denotes b' y →
    ∃ t t', exec (mk a b dst) s = .next t ∧ exec (mk a' b' dst) s = .next t' ∧ t'.status = t.status ∧
      t'.fault = t.fault ∧ (t.status.isFaulted = false → t' = t)

/-- R39, R41, R109: when ADD writes the cell the next step fetches its word from, the next step executes the instruction
of the word just written, with the operand cells that follow it. -/
def Obligations.WordWrittenByAddRunsNext : Prop :=
  ∀ (s : State) (a b : Operand) (x y : Int) (j : Instr) (cells : List Int),
    s.Ready → (∀ c, s.config.ceiling = some c → s.steps + 1 < c) → s.tape.wf = true →
    s.InstrAtIp (.add a b (s.ip + 4)) → s.Denotes a x → s.Denotes b y → s.InBounds (s.ip + 4) →
    InRange s.config.width (x + y) → j.op.runMode = .full → encode j = (x + y) :: cells →
    (∀ (k : Nat) (v : Int), cells[k]? = some v →
      s.InBounds (s.ip + 5 + (k : Int)) ∧ s.cell (s.ip + 5 + (k : Int)) = v) →
    ∃ t, step s = .next t ∧ t.ip = s.ip + 4 ∧ step t = exec j t

/-! ### Memory, invariant, runs -/

/-- R13, R19, R39: a read gives the value of the latest write, a write leaves every other cell alone, and the tape stays
in canonical form (the model's representation, notes/assumptions/1.md). -/
def Obligations.ReadGivesLatestWrite : Prop :=
  ∀ (s : State) (a v : Int), s.tape.wf = true → s.InBounds a →
    ∃ t, s.memWrite a v = .ok t ∧ t.tape.wf = true ∧ t.memRead a = .ok v ∧
      ∀ b, b ≠ a → t.memRead b = s.memRead b

/-- R6, R7, R19, R21 to R27: every step keeps the invariant of the machine. -/
def Obligations.EveryStepKeepsTheInvariant : Prop :=
  ∀ s t : State, s.Inv → step s = .next t → t.Inv

/-- The invariant holds of the reset state. The reset state is the model's choice of launch (notes/assumptions/3.md). -/
def Obligations.ResetMeetsTheInvariant : Prop := State.reset.Inv

/-- R102, R104: the invariant holds of every launch that meets the launch preconditions. -/
def Obligations.EveryLaunchMeetsTheInvariant : Prop := ∀ l : Launch, l.wf = true → (State.launch l).Inv

/-- R102: the reset state of a launch. -/
def Obligations.LaunchGivesTheResetState : Prop :=
  ∀ l : Launch,
    ((∀ (k : Nat) (v : Int), l.program[k]? = some v → (State.launch l).memRead (k : Int) = .ok v) ∧
      (State.launch l).config.len = l.program.length) ∧
    (State.launch l).ip = 0 ∧
    (∀ input, l.mode = .full input →
      (State.launch l).config.mode = .full ∧ (State.launch l).inValid = true ∧ (State.launch l).inValue = input) ∧
    (l.mode = .restricted →
      (State.launch l).config.mode = .restricted ∧ (State.launch l).inValid = false ∧ (State.launch l).inValue = 0) ∧
    (State.launch l).outValue = 0 ∧ (State.launch l).outValid = false ∧ (State.launch l).status = .running ∧
    (State.launch l).fault = none ∧ (State.launch l).steps = 0 ∧ (State.launch l).config.ceiling = l.ceiling

/-- R111: while Running the block has a step; with a numeric CEILING a run is over after CEILING steps and one more, which
faults, with at most CEILING of them completed; and without one the rule's own example, the launch of `1105,1,0`, is
Running for ever. -/
def Obligations.RunWithCeilingTerminates : Prop :=
  (∀ s : State, s.status = .running → ∃ t, step s = .next t) ∧
  (∀ (s : State) (c : Nat), s.config.ceiling = some c →
    (s.advance (c - s.steps + 1)).status ≠ .running ∧
    ((s.advance (c - s.steps + 1)).status.isFaulted = false → s.steps ≤ c → (s.advance (c - s.steps + 1)).steps ≤ c)) ∧
  (∀ (W : Nat) (input : Int) (k : Nat),
    ((State.launch { width := W, mode := .full input, ceiling := none, program := [1105, 1, 0] }).advance k).status =
      .running)

/-- R97: the result surface at a terminal status. The restricted-mode clause is for the states the invariant admits, whose
tape has a cell 0 when they are Halted. -/
def Obligations.ResultSurfaceAtTerminalStatus : Prop :=
  ∀ s : State,
    (∀ k, s.status = .faulted k → s.result = some (.error k)) ∧
    (s.Inv → s.status = .halted → s.config.mode = .restricted → s.result = some (.ok (s.tape.get 0))) ∧
    (s.status = .halted → s.config.mode = .full → s.outValid = true → s.result = some (.ok s.outValue)) ∧
    (s.status = .halted → s.config.mode = .full → s.outValid = false → s.result = some (.error .noOutput))

/-- R19, R21, R22, R23: along a safe run every cell, `ip` and every register stays a value of `Int_W`. -/
def Obligations.SafeRunKeepsValuesInRange : Prop :=
  ∀ s t : State, s.Inv → s.SafeRun → s.Reaches t → t.ValuesOk

/-- R97, R106, R107, R111: every well-formed launch with a numeric ceiling gives its caller a result, and a value given
is one of `Int_W`. Running it for CEILING + 1 steps is the model's choice (notes/assumptions/13.md). -/
def Obligations.LaunchWithCeilingHasResult : Prop :=
  ∀ (l : Launch) (c : Nat), l.wf = true → l.ceiling = some c →
    ∃ r, runResult l = some r ∧ ∀ v, r = .ok v → InRange l.width v

/-- R104, R94 (spec/92_eei_decisions.md D22): a program text that parses gives values of `Int_W` only, and a text that
does not is a ParseError. What a token is, is the model's choice (notes/assumptions/11.md). -/
def Obligations.ParsedProgramFitsTheTape : Prop :=
  ∀ (W : Nat) (text : List Char),
    (∀ program, parseProgram W text = .ok program → ∀ v ∈ program, InRange W v) ∧
    (∀ k, parseProgram W text = .error k → k = .parseError)
end

