-- ==== Sys2Proof/Laws/Decode.lean ====
section
/-! SUPPORT. The decoder and the encoder agree on words; building an instruction from its operand cells. -/

namespace Sys2Proof

@[simp] theorem AddrMode.mode_operand (m : AddrMode) (p : Int) : (m.operand p).mode = m := by cases m <;> rfl
@[simp] theorem AddrMode.cell_operand (m : AddrMode) (p : Int) : (m.operand p).cell = p := by cases m <;> rfl
@[simp] theorem Operand.operand_mode_cell (o : Operand) : o.mode.operand o.cell = o := by cases o <;> rfl

/-- The mode digits an operation's word can hold: 0 where the operation has no read operand 1 or 2. -/
def Op.modesLegal : Op → AddrMode → AddrMode → Bool
  | .add, _, _ | .mul, _, _ | .lt, _, _ | .eq, _, _ | .jit, _, _ | .jif, _, _ => true
  | .output, _, m₂ => decide (m₂ = .position)
  | .input, m₁, m₂ | .halt, m₁, m₂ | .addRestricted, m₁, m₂ | .mulRestricted, m₁, m₂ | .haltRestricted, m₁, m₂ =>
    decide (m₁ = .position) && decide (m₂ = .position)

/-- The decoder reads back every word the encoder writes. -/
theorem decodeWord_encodeWord (op : Op) (m₁ m₂ : AddrMode) (h : op.modesLegal m₁ m₂ = true) :
    decodeWord op.runMode (encodeWord op m₁ m₂) = .ok { op := op, m₁ := m₁, m₂ := m₂ } := by
  revert h
  cases op <;> cases m₁ <;> cases m₂ <;> decide

theorem fullOp_eq_some {n : Nat} {op : Op} (h : fullOp n = some op) : n = op.number ∧ op.runMode = .full := by
  unfold fullOp at h
  split at h <;> simp_all <;> subst h <;> exact ⟨rfl, rfl⟩

theorem fullOp_number {op : Op} (h : op.runMode = .full) : fullOp op.number = some op := by
  cases op <;> first | rfl | cases h

/-- The mode digits that pass the loop of `decode_full`: each below 2, and 0 where the operand is written. -/
theorem checkModes_eq_ok {w : Nat} {kinds : List OperandKind} {k : Nat} (h : checkModes w k kinds = .ok ()) :
    ∀ j kind, kinds[j]? = some kind →
      digit (k + j + 1) w < 2 ∧ (kind = .write → digit (k + j + 1) w = 0) := by
  induction kinds generalizing k with
  | nil => intro j kind hj; simp at hj
  | cons kd rest ih =>
    intro j kind hj
    rw [checkModes] at h
    split at h
    · cases h
    · split at h
      · cases h
      · rename_i h1 h2
        cases j with
        | zero =>
          simp only [List.getElem?_cons_zero, Option.some.injEq] at hj
          subst hj
          refine ⟨by simpa using h1, fun hw => ?_⟩
          have h3 : digit (k + 1) w ≠ 1 := fun h => h2 ⟨hw, h⟩
          have h4 : digit (k + 1) w < 2 := Nat.lt_of_not_le h1
          simp only [Nat.add_zero]
          omega
        | succ j =>
          have := ih h j kind (by simpa using hj)
          rwa [show k + 1 + j + 1 = k + (j + 1) + 1 by omega] at this

/-- The digits of a word that passes the checks of `decode_full`. -/
theorem digits_of_checked {n : Nat} {op : Op} (hfull : op.runMode = .full)
    (hmodes : checkModes n 1 op.kinds = .ok ()) (hex : n / 10 ^ (op.count + 2) = 0) :
    n / 10000 = 0 ∧ digit 2 n < 2 ∧ digit 3 n < 2 ∧
      op.modesLegal (modeOfDigit (digit 2 n)) (modeOfDigit (digit 3 n)) = true := by
  have h0 := checkModes_eq_ok hmodes 0
  have h1 := checkModes_eq_ok hmodes 1
  have h2 := checkModes_eq_ok hmodes 2
  have e2 : digit 2 n = n / 100 % 10 := rfl
  have e3 : digit 3 n = n / 1000 % 10 := rfl
  have e4 : digit 4 n = n / 10000 % 10 := rfl
  cases op <;> first | (cases hfull; done) | skip
  case add | mul | lt | eq =>
    have h0 := (h0 _ rfl).1
    have h1 := (h1 _ rfl).1
    have h2 : digit 4 n = 0 := (h2 _ rfl).2 rfl
    have hex : n / 100000 = 0 := hex
    exact ⟨by omega, h0, h1, rfl⟩
  case jit | jif =>
    have hex : n / 10000 = 0 := hex
    exact ⟨hex, (h0 _ rfl).1, (h1 _ rfl).1, rfl⟩
  case output =>
    have hex : n / 1000 = 0 := hex
    have h3 : digit 3 n = 0 := by omega
    exact ⟨by omega, (h0 _ rfl).1, by omega, by rw [h3]; rfl⟩
  case input =>
    have hex : n / 1000 = 0 := hex
    have h3 : digit 3 n = 0 := by omega
    have h2 : digit 2 n = 0 := (h0 _ rfl).2 rfl
    exact ⟨by omega, by omega, by omega, by rw [h3, h2]; rfl⟩
  case halt =>
    have hex : n / 100 = 0 := hex
    have h3 : digit 3 n = 0 := by omega
    have h2 : digit 2 n = 0 := by omega
    exact ⟨by omega, by omega, by omega, by rw [h3, h2]; rfl⟩

theorem digit_modeOfDigit {k : Nat} (h : k < 2) : (modeOfDigit k).digit = k := by
  match k, h with
  | 0, _ => rfl
  | 1, _ => rfl

/-- What a legal full-mode word is: the encoding of the operation and modes it decodes to. -/
theorem decodeFull_eq_ok {w : Int} {d : Decoded} (h : decodeFull w = .ok d) :
    w = encodeWord d.op d.m₁ d.m₂ ∧ d.op.runMode = .full ∧ d.op.modesLegal d.m₁ d.m₂ = true := by
  unfold decodeFull at h
  split at h
  · cases h
  rename_i hneg
  obtain ⟨n, rfl⟩ := Int.eq_ofNat_of_zero_le (Int.not_lt.mp hneg)
  simp only [Int.toNat_natCast] at h
  split at h
  · cases h
  rename_i op hop
  obtain ⟨hnum, hfull⟩ := fullOp_eq_some hop
  split at h
  · cases h
  rename_i hmodes
  split at h
  · cases h
  rename_i hex
  simp only [ne_eq, not_not] at hex
  cases h
  obtain ⟨h4, h2, h3, hlegal⟩ := digits_of_checked hfull hmodes hex
  have e2 : digit 2 n = n / 100 % 10 := rfl
  have e3 : digit 3 n = n / 1000 % 10 := rfl
  refine ⟨?_, hfull, hlegal⟩
  simp only [encodeWord, digit_modeOfDigit h2, digit_modeOfDigit h3, Nat.cast_inj]
  omega

/-- What a legal word of either run mode is. -/
theorem decodeWord_eq_ok {m : RunMode} {w : Int} {d : Decoded} (h : decodeWord m w = .ok d) :
    w = encodeWord d.op d.m₁ d.m₂ ∧ d.op.runMode = m ∧ d.op.modesLegal d.m₁ d.m₂ = true := by
  cases m with
  | full => exact decodeFull_eq_ok h
  | restricted =>
    simp only [decodeWord, decodeRestricted] at h
    split at h
    · cases h; subst w; decide
    · split at h
      · cases h; subst w; decide
      · split at h
        · cases h; subst w; decide
        · cases h

end Sys2Proof

namespace Sys2Proof

/-- A built instruction has the operation and the modes decoded, and its operand cells are those fetched. -/
theorem Decoded.build_eq_ok {ε : Type} {cell : Nat → Except ε Int} {d : Decoded} {i : Instr}
    (hd : d.op.modesLegal d.m₁ d.m₂ = true) (h : d.build cell = .ok i) :
    i.op = d.op ∧ ∃ cells : List Int, encode i = encodeWord d.op d.m₁ d.m₂ :: cells ∧ cells.length = d.op.count ∧
      ∀ (k : Nat) (v : Int), cells[k]? = some v → cell (k + 1) = .ok v := by
  obtain ⟨op, m₁, m₂⟩ := d
  cases op
  all_goals
    simp only [Op.modesLegal, Bool.and_eq_true, decide_eq_true_eq] at hd
    simp only [Decoded.build, build1, build2, build3] at h
  case input | output =>
    split at h
    · cases h
    · rename_i p₁ h1
      cases h
      refine ⟨rfl, [p₁], by simp [encode, hd], rfl, fun k v hv => ?_⟩
      match k with
      | 0 => simp at hv; subst hv; exact h1
      | k + 1 => simp at hv
  case jit | jif =>
    split at h
    · cases h
    rename_i p₁ h1
    split at h
    · cases h
    rename_i p₂ h2
    cases h
    refine ⟨rfl, [p₁, p₂], by simp [encode], rfl, fun k v hv => ?_⟩
    match k with
    | 0 => simp at hv; subst hv; exact h1
    | 1 => simp at hv; subst hv; exact h2
    | k + 2 => simp at hv
  case add | mul | lt | eq | addRestricted | mulRestricted =>
    split at h
    · cases h
    rename_i p₁ h1
    split at h
    · cases h
    rename_i p₂ h2
    split at h
    · cases h
    rename_i p₃ h3
    cases h
    refine ⟨rfl, [p₁, p₂, p₃], by simp [encode, hd], rfl, fun k v hv => ?_⟩
    match k with
    | 0 => simp at hv; subst hv; exact h1
    | 1 => simp at hv; subst hv; exact h2
    | 2 => simp at hv; subst hv; exact h3
    | k + 3 => simp at hv
  case halt | haltRestricted =>
    cases h
    exact ⟨rfl, [], by simp [encode, hd], rfl, fun k v hv => by simp at hv⟩

/-- The word of every instruction decodes, in the instruction's run mode, to its operation and modes; and building from
its own operand cells gives the instruction back. -/
theorem Instr.decode_word (i : Instr) :
    ∃ (w : Int) (cells : List Int) (d : Decoded), encode i = w :: cells ∧ decodeWord i.op.runMode w = .ok d ∧
      d.op = i.op ∧ cells.length = i.op.count ∧
      ∀ {ε : Type} (cell : Nat → Except ε Int), (∀ (k : Nat) (v : Int), cells[k]? = some v → cell (k + 1) = .ok v) →
        d.build cell = .ok i := by
  cases i with
  | add a b dst | mul a b dst | lt a b dst | eq a b dst =>
    refine ⟨_, _, _, rfl, decodeWord_encodeWord _ _ _ rfl, rfl, rfl, fun cell hc => ?_⟩
    simp [Instr.op, Decoded.build, build3, hc 0 _ rfl, hc 1 _ rfl, hc 2 _ rfl]
  | input dst =>
    refine ⟨_, _, _, rfl, decodeWord_encodeWord _ _ _ rfl, rfl, rfl, fun cell hc => ?_⟩
    simp [Instr.op, Decoded.build, build1, hc 0 _ rfl]
  | output val =>
    refine ⟨_, _, _, rfl, decodeWord_encodeWord _ _ _ rfl, rfl, rfl, fun cell hc => ?_⟩
    simp [Instr.op, Decoded.build, build1, hc 0 _ rfl]
  | jit val target | jif val target =>
    refine ⟨_, _, _, rfl, decodeWord_encodeWord _ _ _ rfl, rfl, rfl, fun cell hc => ?_⟩
    simp [Instr.op, Decoded.build, build2, hc 0 _ rfl, hc 1 _ rfl]
  | addRestricted p₁ p₂ dst | mulRestricted p₁ p₂ dst =>
    refine ⟨_, _, _, rfl, decodeWord_encodeWord _ _ _ rfl, rfl, rfl, fun cell hc => ?_⟩
    simp [Instr.op, Decoded.build, build3, hc 0 _ rfl, hc 1 _ rfl, hc 2 _ rfl]
  | halt | haltRestricted =>
    exact ⟨_, _, _, rfl, decodeWord_encodeWord _ _ _ rfl, rfl, rfl, fun cell _ => rfl⟩

/-- Operand cell `k` of a list. -/
theorem operandCell_eq_ok {cells : List Int} {k : Nat} {v : Int} (h : operandCell cells k = .ok v) :
    cells[k - 1]? = some v := by
  unfold operandCell at h
  split at h
  · cases h; assumption
  · cases h

theorem operandCell_of_get {cells : List Int} {k : Nat} {v : Int} (h : cells[k]? = some v) :
    operandCell cells (k + 1) = .ok v := by
  simp [operandCell, h]

/-- The word an instruction begins with is legal in its run mode, and the cells that follow build it again. -/
theorem decode_encode_append (i : Instr) (rest : List Int) :
    decode i.op.runMode (encode i ++ rest) = .ok (i, rest) := by
  obtain ⟨w, cells, d, he, hw, hop, hlen, hb⟩ := i.decode_word
  have hbuild : d.build (operandCell (cells ++ rest)) = .ok i := by
    refine hb _ fun k v hv => operandCell_of_get ?_
    rw [List.getElem?_append_left (List.getElem?_eq_some_iff.mp hv).1, hv]
  simp only [he, List.cons_append, decode, hw, hbuild, hop, ← hlen, List.drop_left]

end Sys2Proof
end

