-- ==== Sys2Proof/Laws/Memory.lean ====
section
/-! SUPPORT. The laws of the tape's representation: reads after writes, and every operation keeps the canonical form. -/

namespace Sys2Proof.Machine

/-- A canonical memory from `lo` on lists no address below `lo`. -/
theorem Memory.get_below {m : Memory} {lo a : Nat} (h : m.wfFrom lo = true) (ha : a < lo) :
    m.get a = Memory.unlisted := by
  induction m generalizing lo with
  | nil => rfl
  | cons c m ih =>
    obtain ⟨b, u⟩ := c
    simp only [Memory.wfFrom, Bool.and_eq_true, decide_eq_true_eq] at h
    have : a ≠ b := by omega
    simp only [Memory.get, this, if_false]
    exact ih h.2 (by omega)

theorem Memory.wfFrom_mono {m : Memory} {lo lo' : Nat} (h : m.wfFrom lo = true) (hl : lo' ≤ lo) :
    m.wfFrom lo' = true := by
  cases m with
  | nil => rfl
  | cons c m =>
    obtain ⟨b, u⟩ := c
    simp only [Memory.wfFrom, Bool.and_eq_true, decide_eq_true_eq] at h ⊢
    exact ⟨⟨by omega, h.1.2⟩, h.2⟩

theorem Memory.get_set_same_from {m : Memory} {lo a : Nat} (v : Int) (h : m.wfFrom lo = true) :
    (m.set a v).get a = v := by
  induction m generalizing lo with
  | nil =>
    by_cases hv : v = Memory.unlisted <;> simp [Memory.set, Memory.get, hv]
  | cons c m ih =>
    obtain ⟨b, u⟩ := c
    simp only [Memory.wfFrom, Bool.and_eq_true, decide_eq_true_eq] at h
    rcases Nat.lt_trichotomy a b with hab | hab | hab
    · by_cases hv : v = Memory.unlisted
      · have hm := Memory.get_below (a := a) h.2 (by omega)
        simp [Memory.set, Memory.get, hab, hv, hm, Nat.ne_of_lt hab]
      · simp [Memory.set, Memory.get, hab, hv]
    · subst hab
      by_cases hv : v = Memory.unlisted
      · have hm := Memory.get_below (a := a) h.2 (by omega)
        simp [Memory.set, hv, hm]
      · simp [Memory.set, Memory.get, hv]
    · have h1 : ¬ a < b := by omega
      have h2 : a ≠ b := by omega
      simp only [Memory.set, h1, h2, if_false, Memory.get]
      exact ih h.2

/-- A read of the cell just written gives the value written. -/
theorem Memory.get_set_same {m : Memory} (a : Nat) (v : Int) (h : m.wf = true) : (m.set a v).get a = v :=
  Memory.get_set_same_from v h

/-- A write leaves every other cell alone. -/
theorem Memory.get_set_other (m : Memory) {a b : Nat} (v : Int) (hab : b ≠ a) : (m.set a v).get b = m.get b := by
  induction m with
  | nil => by_cases hv : v = Memory.unlisted <;> simp [Memory.set, Memory.get, hv, hab]
  | cons c m ih =>
    obtain ⟨k, u⟩ := c
    by_cases h1 : a < k
    · by_cases hv : v = Memory.unlisted <;> simp [Memory.set, Memory.get, h1, hv, hab]
    · by_cases h2 : a = k
      · subst h2
        by_cases hv : v = Memory.unlisted <;> simp [Memory.set, Memory.get, hv, hab]
      · simp only [Memory.set, h1, h2, if_false, Memory.get, ih]

theorem Memory.set_wfFrom {m : Memory} {lo a : Nat} (v : Int) (h : m.wfFrom lo = true) (hl : lo ≤ a) :
    (m.set a v).wfFrom lo = true := by
  induction m generalizing lo with
  | nil => by_cases hv : v = Memory.unlisted <;> simp [Memory.set, Memory.wfFrom, hv, hl]
  | cons c m ih =>
    obtain ⟨b, u⟩ := c
    simp only [Memory.wfFrom, Bool.and_eq_true, decide_eq_true_eq] at h
    by_cases h1 : a < b
    · by_cases hv : v = Memory.unlisted
      · simp [Memory.set, Memory.wfFrom, h1, hv, h]
      · have : a + 1 ≤ b := h1
        simp [Memory.set, Memory.wfFrom, h1, hv, h, hl, this]
    · by_cases h2 : a = b
      · subst h2
        by_cases hv : v = Memory.unlisted
        · simpa [Memory.set, hv] using Memory.wfFrom_mono h.2 (show lo ≤ a + 1 by omega)
        · simp [Memory.set, Memory.wfFrom, hv, h]
      · simp only [Memory.set, h1, h2, if_false, Memory.wfFrom, Bool.and_eq_true, decide_eq_true_eq]
        exact ⟨h.1, ih h.2 (by omega)⟩

/-- A write keeps the canonical form. -/
theorem Memory.set_wf {m : Memory} (a : Nat) (v : Int) (h : m.wf = true) : (m.set a v).wf = true :=
  Memory.set_wfFrom v h (Nat.zero_le a)

/-- A write of several cells keeps the canonical form. -/
theorem Memory.setCells_wf {m : Memory} (a : Nat) (cells : List Int) (h : m.wf = true) :
    (m.setCells a cells).wf = true := by
  induction cells generalizing a with
  | nil => exact h
  | cons v vs ih => exact Memory.set_wf a v (ih (a + 1))

theorem Memory.ofCells_wfFrom (a : Nat) (cells : List Int) : (Memory.ofCells a cells).wfFrom a = true := by
  induction cells generalizing a with
  | nil => rfl
  | cons v vs ih =>
    by_cases hv : v = Memory.unlisted
    · simp only [Memory.ofCells, hv, if_true]
      exact Memory.wfFrom_mono (ih (a + 1)) (by omega)
    · simp [Memory.ofCells, hv, Memory.wfFrom, ih]

/-- The memory of a program is canonical. -/
theorem Memory.ofCells_wf (cells : List Int) : (Memory.ofCells 0 cells).wf = true := Memory.ofCells_wfFrom 0 cells

/-- The memory of a program holds its cells, and the unlisted value beyond them. -/
theorem Memory.get_ofCells (a k : Nat) (cells : List Int) :
    (Memory.ofCells a cells).get (a + k) = cells[k]?.getD Memory.unlisted := by
  induction cells generalizing a k with
  | nil => rfl
  | cons v vs ih =>
    cases k with
    | zero =>
      by_cases hv : v = Memory.unlisted
      · have := Memory.get_below (Memory.ofCells_wfFrom (a + 1) vs) (Nat.lt_succ_self a)
        simp [Memory.ofCells, hv, this]
      · simp [Memory.ofCells, hv, Memory.get]
    | succ k =>
      have h := ih (a + 1) k
      rw [show a + 1 + k = a + (k + 1) by omega] at h
      by_cases hv : v = Memory.unlisted
      · simp [Memory.ofCells, hv, h]
      · simp [Memory.ofCells, hv, Memory.get, h]

/-- Writing a cell below a bound keeps every listed address below it. -/
theorem Memory.set_keys_lt {m : Memory} {n a : Nat} (v : Int) (h : m.all (fun c => decide (c.1 < n)) = true)
    (ha : a < n) : (m.set a v).all (fun c => decide (c.1 < n)) = true := by
  induction m with
  | nil => by_cases hv : v = Memory.unlisted <;> simp [Memory.set, hv, ha]
  | cons c m ih =>
    obtain ⟨b, u⟩ := c
    simp only [List.all_cons, Bool.and_eq_true, decide_eq_true_eq] at h
    by_cases h1 : a < b
    · by_cases hv : v = Memory.unlisted
      · simpa [Memory.set, h1, hv] using h
      · simpa [Memory.set, h1, hv, ha] using h
    · by_cases h2 : a = b
      · subst h2
        by_cases hv : v = Memory.unlisted
        · simpa [Memory.set, hv] using h.2
        · simpa [Memory.set, hv, ha] using h.2
      · simp only [Memory.set, h1, h2, if_false, List.all_cons, Bool.and_eq_true, decide_eq_true_eq]
        exact ⟨h.1, ih h.2⟩

/-- The memory of a program lists addresses of its cells only. -/
theorem Memory.ofCells_keys_lt (a : Nat) (cells : List Int) :
    (Memory.ofCells a cells).all (fun c => decide (c.1 < a + cells.length)) = true := by
  induction cells generalizing a with
  | nil => rfl
  | cons v vs ih =>
    have h := ih (a + 1)
    rw [show a + 1 + vs.length = a + (v :: vs).length by simp; omega] at h
    by_cases hv : v = Memory.unlisted
    · simpa [Memory.ofCells, hv] using h
    · simpa [Memory.ofCells, hv] using h

/-- A bound that holds of every cell and of the value written holds of every cell after the write. -/
theorem Memory.forall_get_set {P : Int → Prop} {m : Memory} (a : Nat) {v : Int} (hm : m.wf = true)
    (hall : ∀ k, P (m.get k)) (hv : P v) (k : Nat) : P ((m.set a v).get k) := by
  by_cases h : k = a
  · subst h
    rw [Memory.get_set_same k v hm]
    exact hv
  · rw [Memory.get_set_other m v h]
    exact hall k

end Sys2Proof.Machine
end

