-- ==== Sys2Proof/Laws/State.lean ====
section
/-! SUPPORT. One lemma for each field under each update of the state, so that no proof unfolds a record update. -/

namespace Sys2Proof.Machine

section Raise
variable (s : State) (c : Cause)

@[simp] theorem State.raise_config : (s.raise c).config = s.config := rfl
@[simp] theorem State.raise_tape : (s.raise c).tape = s.tape := rfl
@[simp] theorem State.raise_ip : (s.raise c).ip = s.ip := rfl
@[simp] theorem State.raise_inValid : (s.raise c).inValid = s.inValid := rfl
@[simp] theorem State.raise_inValue : (s.raise c).inValue = s.inValue := rfl
@[simp] theorem State.raise_outValue : (s.raise c).outValue = s.outValue := rfl
@[simp] theorem State.raise_outValid : (s.raise c).outValid = s.outValid := rfl
@[simp] theorem State.raise_status : (s.raise c).status = .faulted c.kind := rfl
@[simp] theorem State.raise_fault :
    (s.raise c).fault = some { kind := c.kind, faultIp := s.ip, info := c.info } := rfl
@[simp] theorem State.raise_steps : (s.raise c).steps = s.steps := rfl

end Raise

section SetCell
variable (s : State) (a v : Int)

@[simp] theorem State.setCell_config : (s.setCell a v).config = s.config := rfl
@[simp] theorem State.setCell_tape : (s.setCell a v).tape = s.tape.set a.toNat v := rfl
@[simp] theorem State.setCell_ip : (s.setCell a v).ip = s.ip := rfl
@[simp] theorem State.setCell_inValid : (s.setCell a v).inValid = s.inValid := rfl
@[simp] theorem State.setCell_inValue : (s.setCell a v).inValue = s.inValue := rfl
@[simp] theorem State.setCell_outValue : (s.setCell a v).outValue = s.outValue := rfl
@[simp] theorem State.setCell_outValid : (s.setCell a v).outValid = s.outValid := rfl
@[simp] theorem State.setCell_status : (s.setCell a v).status = s.status := rfl
@[simp] theorem State.setCell_fault : (s.setCell a v).fault = s.fault := rfl
@[simp] theorem State.setCell_steps : (s.setCell a v).steps = s.steps := rfl

end SetCell

section CommitRegisters
variable (s : State) (n : Nat) (e : Effect)

@[simp] theorem State.commitRegisters_config : (s.commitRegisters n e).config = s.config := rfl
@[simp] theorem State.commitRegisters_tape : (s.commitRegisters n e).tape = s.tape := rfl
@[simp] theorem State.commitRegisters_ip : (s.commitRegisters n e).ip = nextIp s.ip n e.req := rfl
@[simp] theorem State.commitRegisters_inValid : (s.commitRegisters n e).inValid = (s.inValid && !e.consume) := rfl
@[simp] theorem State.commitRegisters_inValue : (s.commitRegisters n e).inValue = s.inValue := rfl
@[simp] theorem State.commitRegisters_outValue : (s.commitRegisters n e).outValue = e.out.getD s.outValue := rfl
@[simp] theorem State.commitRegisters_outValid : (s.commitRegisters n e).outValid = (s.outValid || e.out.isSome) := rfl
@[simp] theorem State.commitRegisters_status : (s.commitRegisters n e).status = nextStatus s.status e.req := rfl
@[simp] theorem State.commitRegisters_fault : (s.commitRegisters n e).fault = s.fault := rfl
@[simp] theorem State.commitRegisters_steps : (s.commitRegisters n e).steps = s.steps + 1 := rfl

end CommitRegisters

section Launch
variable (l : Launch)

@[simp] theorem State.launch_config : (State.launch l).config = l.config := rfl
@[simp] theorem State.launch_tape : (State.launch l).tape = Memory.ofCells 0 l.program := rfl
@[simp] theorem State.launch_ip : (State.launch l).ip = 0 := rfl
@[simp] theorem State.launch_inValid : (State.launch l).inValid = resetInValid l.mode := rfl
@[simp] theorem State.launch_inValue : (State.launch l).inValue = resetInValue l.mode := rfl
@[simp] theorem State.launch_outValue : (State.launch l).outValue = 0 := rfl
@[simp] theorem State.launch_outValid : (State.launch l).outValid = false := rfl
@[simp] theorem State.launch_status : (State.launch l).status = .running := rfl
@[simp] theorem State.launch_fault : (State.launch l).fault = none := rfl
@[simp] theorem State.launch_steps : (State.launch l).steps = 0 := rfl

end Launch

section LoadCells
variable (s : State) (cells : List Int)

@[simp] theorem State.loadCells_width : (s.loadCells cells).config.width = s.config.width := rfl
@[simp] theorem State.loadCells_mode : (s.loadCells cells).config.mode = s.config.mode := rfl
@[simp] theorem State.loadCells_len : (s.loadCells cells).config.len = max s.config.len (s.fetchSite + 4) := rfl
@[simp] theorem State.loadCells_ceiling :
    (s.loadCells cells).config.ceiling = if s.ceilingReached then none else s.config.ceiling := rfl
@[simp] theorem State.loadCells_tape : (s.loadCells cells).tape = s.tape.setCells s.fetchSite cells := rfl
@[simp] theorem State.loadCells_ip : (s.loadCells cells).ip = (s.fetchSite : Int) := rfl
@[simp] theorem State.loadCells_inValid : (s.loadCells cells).inValid = s.inValid := rfl
@[simp] theorem State.loadCells_inValue : (s.loadCells cells).inValue = s.inValue := rfl
@[simp] theorem State.loadCells_outValue : (s.loadCells cells).outValue = s.outValue := rfl
@[simp] theorem State.loadCells_outValid : (s.loadCells cells).outValid = s.outValid := rfl
@[simp] theorem State.loadCells_status : (s.loadCells cells).status = .running := rfl
@[simp] theorem State.loadCells_fault : (s.loadCells cells).fault = none := rfl
@[simp] theorem State.loadCells_steps : (s.loadCells cells).steps = s.steps := rfl

end LoadCells

end Sys2Proof.Machine
end

