-- ==== Sys2Proof/Laws/Ops.lean ====
section
/-! SUPPORT. What each shared operation can do, said once: the memory primitives, the operand resolver, the commit
phase, the end of a step. Later proofs cite these and do not unfold the operations. -/

namespace Sys2Proof.Machine

theorem State.memRead_inBounds {s : State} {a : Int} (h : s.InBounds a) : s.memRead a = .ok (s.cell a) := if_pos h

theorem State.memRead_outside {s : State} {a : Int} (h : ¬ s.InBounds a) : s.memRead a = .error (.outOfBounds a) :=
  if_neg h

theorem State.memRead_eq_ok {s : State} {a v : Int} : s.memRead a = .ok v ↔ s.InBounds a ∧ s.cell a = v := by
  by_cases h : s.InBounds a
  · rw [State.memRead_inBounds h]
    exact ⟨fun e => ⟨h, Except.ok.inj e⟩, fun e => congrArg _ e.2⟩
  · rw [State.memRead_outside h]
    exact ⟨fun e => (nomatch e), fun e => absurd e.1 h⟩

theorem State.memWrite_inBounds {s : State} {a v : Int} (h : s.InBounds a) : s.memWrite a v = .ok (s.setCell a v) :=
  if_pos h

theorem State.destination_inBounds {s : State} {p : Int} (h : s.InBounds p) : s.destination p = .ok p := if_pos h

theorem State.destination_outside {s : State} {p : Int} (h : ¬ s.InBounds p) :
    s.destination p = .error (.outOfBounds p) := if_neg h

theorem State.destination_eq_ok {s : State} {p d : Int} : s.destination p = .ok d ↔ s.InBounds p ∧ d = p := by
  by_cases h : s.InBounds p
  · rw [State.destination_inBounds h]
    exact ⟨fun e => ⟨h, (Except.ok.inj e).symm⟩, fun e => congrArg _ e.2.symm⟩
  · rw [State.destination_outside h]
    exact ⟨fun e => (nomatch e), fun e => absurd e.1 h⟩

/-- A read operand gives a value exactly when it denotes one. -/
theorem State.readOperand_eq_ok {s : State} {o : Operand} {x : Int} : s.readOperand o = .ok x ↔ s.Denotes o x := by
  cases o with
  | immediate v => simp [State.readOperand, State.Denotes, eq_comm]
  | position p =>
    rw [State.readOperand, State.memRead_eq_ok, State.Denotes, eq_comm (a := x)]

/-- What resolving two read operands and a destination gives. -/
theorem State.resolveRRW_eq_ok {s : State} {a b : Operand} {dst x y d : Int} :
    s.resolveRRW a b dst = .ok (x, y, d) ↔ s.Denotes a x ∧ s.Denotes b y ∧ s.InBounds dst ∧ d = dst := by
  unfold State.resolveRRW
  rw [← State.readOperand_eq_ok, ← State.readOperand_eq_ok, ← State.destination_eq_ok]
  cases s.readOperand a <;> cases s.readOperand b <;> cases s.destination dst <;> simp

theorem State.resolveRR_eq_ok {s : State} {a b : Operand} {x y : Int} :
    s.resolveRR a b = .ok (x, y) ↔ s.Denotes a x ∧ s.Denotes b y := by
  unfold State.resolveRR
  rw [← State.readOperand_eq_ok, ← State.readOperand_eq_ok]
  cases s.readOperand a <;> cases s.readOperand b <;> simp

@[simp] theorem State.firstOutOfBounds_nil (s : State) (p : Int) : s.FirstOutOfBounds [] p ↔ False := Iff.rfl

theorem State.firstOutOfBounds_inBounds {s : State} {a : Int} (h : s.InBounds a) (rest : List Int) (p : Int) :
    s.FirstOutOfBounds (a :: rest) p ↔ s.FirstOutOfBounds rest p := by
  simp only [State.FirstOutOfBounds, if_pos h]

theorem State.firstOutOfBounds_outside {s : State} {a : Int} (h : ¬ s.InBounds a) (rest : List Int) (p : Int) :
    s.FirstOutOfBounds (a :: rest) p ↔ p = a := by
  simp only [State.FirstOutOfBounds, if_neg h]

/-- A read operand gives a value and its addresses are in bounds, or it raises the one that is not. -/
theorem State.readOperand_cases (s : State) (o : Operand) :
    (∃ x, s.readOperand o = .ok x ∧
      ∀ rest p, s.FirstOutOfBounds (o.addresses ++ rest) p ↔ s.FirstOutOfBounds rest p) ∨
    (∃ q, s.readOperand o = .error (.outOfBounds q) ∧ ∀ rest p, s.FirstOutOfBounds (o.addresses ++ rest) p ↔ p = q) := by
  cases o with
  | immediate v => exact .inl ⟨v, rfl, fun _ _ => Iff.rfl⟩
  | position a =>
    by_cases h : s.InBounds a
    · exact .inl ⟨_, State.memRead_inBounds h, State.firstOutOfBounds_inBounds h⟩
    · exact .inr ⟨a, State.memRead_outside h, State.firstOutOfBounds_outside h⟩

theorem State.destination_cases (s : State) (d : Int) :
    (s.destination d = .ok d ∧ ∀ p, s.FirstOutOfBounds [d] p ↔ False) ∨
    (s.destination d = .error (.outOfBounds d) ∧ ∀ p, s.FirstOutOfBounds [d] p ↔ p = d) := by
  by_cases h : s.InBounds d
  · exact .inl ⟨State.destination_inBounds h, State.firstOutOfBounds_inBounds h []⟩
  · exact .inr ⟨State.destination_outside h, State.firstOutOfBounds_outside h []⟩

/-- Resolving two read operands and a destination fails exactly with the first address outside the tape. -/
theorem State.resolveRRW_eq_error {s : State} {a b : Operand} {dst : Int} {c : Cause} :
    s.resolveRRW a b dst = .error c ↔
      ∃ p, s.FirstOutOfBounds (a.addresses ++ (b.addresses ++ [dst])) p ∧ c = .outOfBounds p := by
  unfold State.resolveRRW
  rcases s.readOperand_cases a with ⟨x, ha, fa⟩ | ⟨q, ha, fa⟩ <;>
    rcases s.readOperand_cases b with ⟨y, hb, fb⟩ | ⟨r, hb, fb⟩ <;>
    rcases s.destination_cases dst with ⟨hd, fd⟩ | ⟨hd, fd⟩ <;>
    simp [ha, hb, hd, fa, fb, fd, eq_comm]

theorem State.resolveRR_eq_error {s : State} {a b : Operand} {c : Cause} :
    s.resolveRR a b = .error c ↔ ∃ p, s.FirstOutOfBounds (a.addresses ++ b.addresses) p ∧ c = .outOfBounds p := by
  unfold State.resolveRR
  rw [← List.append_nil b.addresses]
  rcases s.readOperand_cases a with ⟨x, ha, fa⟩ | ⟨q, ha, fa⟩ <;>
    rcases s.readOperand_cases b with ⟨y, hb, fb⟩ | ⟨r, hb, fb⟩ <;>
    simp only [ha, hb, fa, fb] <;> simp [eq_comm]

@[simp] theorem State.finish_error (s : State) (n : Nat) (c : Cause) : s.finish n (.error c) = .next (s.raise c) := rfl

/-- An effect without a write commits. -/
theorem State.finish_noWrite (s : State) (n : Nat) {e : Effect} (h : e.write = none) :
    s.finish n (.ok e) = .next (s.commitRegisters n e) := by
  simp [State.finish, State.commit, h]

/-- An effect whose write is in bounds commits. -/
theorem State.finish_write {s : State} (n : Nat) {e : Effect} {a v : Int} (h : e.write = some (a, v))
    (ha : s.InBounds a) : s.finish n (.ok e) = .next ((s.setCell a v).commitRegisters n e) := by
  simp [State.finish, State.commit, h, State.memWrite_inBounds ha]

/-- A cell is in bounds of the state with another tape. -/
@[simp] theorem State.setCell_inBounds (s : State) (a v b : Int) : (s.setCell a v).InBounds b ↔ s.InBounds b := Iff.rfl

/-- The cell written and no other. -/
theorem State.setCell_writesOnly {s : State} {a : Int} (v : Int) (hw : s.tape.wf = true) :
    s.WritesOnly (s.setCell a v) a v :=
  ⟨Memory.get_set_same _ _ hw, fun _ h => Memory.get_set_other _ _ h⟩

end Sys2Proof.Machine
end

