-- ==== Sys2Proof/Laws/Exec.lean ====
section
/-! SUPPORT. Every meaning is the end of a step applied to an effect; what that effect can be, said once for all
instructions; and what a step can do. -/

namespace Sys2Proof.Machine

/-- The effect, or the failing check, of an instruction. -/
def State.effectOf (s : State) : Instr → Except Cause Effect
  | .add a b dst => s.binaryEffect (addResult s.config.width) a b dst
  | .mul a b dst => s.binaryEffect (mulResult s.config.width) a b dst
  | .input dst => s.inputEffect dst
  | .output val => s.outputEffect val
  | .jit val target => s.branchEffect conditionTrue val target
  | .jif val target => s.branchEffect (fun v => !conditionTrue v) val target
  | .lt a b dst => s.binaryEffect (fun x y => .ok (ltResult x y)) a b dst
  | .eq a b dst => s.binaryEffect (fun x y => .ok (eqResult x y)) a b dst
  | .halt => haltEffect
  | .addRestricted p₁ p₂ dst => s.binaryEffect (addResult s.config.width) (.position p₁) (.position p₂) dst
  | .mulRestricted p₁ p₂ dst => s.binaryEffect (mulResult s.config.width) (.position p₁) (.position p₂) dst
  | .haltRestricted => haltEffect

/-- The meaning of every instruction ends a step with its effect. -/
theorem exec_eq_finish (i : Instr) (s : State) : exec i s = s.finish i.op.count (s.effectOf i) := by
  cases i <;> rfl

/-- A value computed for a cell of `W` bits from values in range is in range. -/
theorem checkedResult_eq_ok {W : Nat} {r v : Int} : checkedResult W r = .ok v ↔ InRange W r ∧ v = r := by
  by_cases h : InRange W r
  · rw [checkedResult, if_pos h]
    exact ⟨fun e => ⟨h, (Except.ok.inj e).symm⟩, fun e => congrArg _ e.2.symm⟩
  · rw [checkedResult, if_neg h]
    exact ⟨fun e => (nomatch e), fun e => absurd e.1 h⟩

/-- The effect of an instruction with two read operands and a destination, when the operands resolve. -/
theorem State.binaryEffect_resolved {s : State} {result : Int → Int → Except Cause Int} {a b : Operand}
    {dst x y : Int} (ha : s.Denotes a x) (hb : s.Denotes b y) (hd : s.InBounds dst) :
    s.binaryEffect result a b dst =
      match result x y with
      | .error c => .error c
      | .ok r => .ok { write := some (dst, r), out := none, consume := false, req := .advance } := by
  cases hr : result x y <;> simp only [State.binaryEffect, State.resolveRRW_eq_ok.mpr ⟨ha, hb, hd, rfl⟩, hr]

/-- What such an effect is, when there is one. -/
theorem State.binaryEffect_eq_ok {s : State} {result : Int → Int → Except Cause Int} {a b : Operand} {dst : Int}
    {e : Effect} (h : s.binaryEffect result a b dst = .ok e) :
    ∃ x y r, s.Denotes a x ∧ s.Denotes b y ∧ s.InBounds dst ∧ result x y = .ok r ∧
      e = { write := some (dst, r), out := none, consume := false, req := .advance } := by
  unfold State.binaryEffect at h
  split at h
  · cases h
  rename_i x y d hres
  obtain ⟨ha, hb, hd, rfl⟩ := State.resolveRRW_eq_ok.mp hres
  split at h
  · cases h
  rename_i r hr
  cases h
  exact ⟨x, y, r, ha, hb, hd, hr, rfl⟩

theorem State.branchEffect_resolved {s : State} {taken : Int → Bool} {val target : Operand} {v d : Int}
    (hv : s.Denotes val v) (ht : s.Denotes target d) :
    s.branchEffect taken val target =
      .ok { write := none, out := none, consume := false, req := if taken v then .jump d else .advance } := by
  rw [State.branchEffect, State.resolveRR_eq_ok.mpr ⟨hv, ht⟩]

theorem State.branchEffect_eq_ok {s : State} {taken : Int → Bool} {val target : Operand} {e : Effect}
    (h : s.branchEffect taken val target = .ok e) :
    ∃ v d, s.Denotes val v ∧ s.Denotes target d ∧
      e = { write := none, out := none, consume := false, req := if taken v then .jump d else .advance } := by
  unfold State.branchEffect at h
  split at h
  · cases h
  rename_i v d hres
  obtain ⟨hv, ht⟩ := State.resolveRR_eq_ok.mp hres
  cases h
  exact ⟨v, d, hv, ht, rfl⟩

theorem State.outputEffect_resolved {s : State} {val : Operand} {v : Int} (h : s.Denotes val v) :
    s.outputEffect val = .ok { write := none, out := some v, consume := false, req := .advance } := by
  rw [State.outputEffect, State.readOperand_eq_ok.mpr h]

theorem State.outputEffect_eq_ok {s : State} {val : Operand} {e : Effect} (h : s.outputEffect val = .ok e) :
    ∃ v, s.Denotes val v ∧ e = { write := none, out := some v, consume := false, req := .advance } := by
  unfold State.outputEffect at h
  split at h
  · cases h
  · rename_i v hv
    cases h
    exact ⟨v, State.readOperand_eq_ok.mp hv, rfl⟩

theorem State.inputEffect_eq_ok {s : State} {dst : Int} {e : Effect} (h : s.inputEffect dst = .ok e) :
    s.InBounds dst ∧ s.inValid = true ∧
      e = { write := some (dst, s.inValue), out := none, consume := true, req := .advance } := by
  unfold State.inputEffect at h
  split at h
  · cases h
  rename_i d hd
  obtain ⟨hb, rfl⟩ := State.destination_eq_ok.mp hd
  split at h
  · rename_i hv
    cases h
    exact ⟨hb, hv, rfl⟩
  · cases h

/-- The write of an effect is to the instruction's destination, in bounds. -/
theorem State.effectOf_write {s : State} {i : Instr} {e : Effect} (h : s.effectOf i = .ok e) :
    match i.destination with
    | none => e.write = none
    | some d => s.InBounds d ∧ ∃ v, e.write = some (d, v) := by
  cases i <;> simp only [State.effectOf] at h
  case add a b dst | mul a b dst | lt a b dst | eq a b dst | addRestricted a b dst | mulRestricted a b dst =>
    obtain ⟨x, y, r, _, _, hd, _, rfl⟩ := State.binaryEffect_eq_ok h
    exact ⟨hd, r, rfl⟩
  case input dst =>
    obtain ⟨hd, _, rfl⟩ := State.inputEffect_eq_ok h
    exact ⟨hd, _, rfl⟩
  case output val =>
    obtain ⟨v, _, rfl⟩ := State.outputEffect_eq_ok h
    rfl
  case jit val target | jif val target =>
    obtain ⟨v, d, _, _, rfl⟩ := State.branchEffect_eq_ok h
    rfl
  case halt | haltRestricted => cases h; rfl

/-- Only OUT outputs, only IN consumes, only HALT requests a halt. -/
theorem State.effectOf_other {s : State} {i : Instr} {e : Effect} (h : s.effectOf i = .ok e) :
    (i.op ≠ .output → e.out = none) ∧ (i.op ≠ .input → e.consume = false) ∧
      (i.op ≠ .halt → i.op ≠ .haltRestricted → e.req ≠ .halt) := by
  cases i <;> simp only [State.effectOf] at h
  case add a b dst | mul a b dst | lt a b dst | eq a b dst | addRestricted a b dst | mulRestricted a b dst =>
    obtain ⟨x, y, r, _, _, hd, _, rfl⟩ := State.binaryEffect_eq_ok h
    simp
  case input dst =>
    obtain ⟨hd, _, rfl⟩ := State.inputEffect_eq_ok h
    simp [Instr.op]
  case output val =>
    obtain ⟨v, _, rfl⟩ := State.outputEffect_eq_ok h
    simp [Instr.op]
  case jit val target | jif val target =>
    obtain ⟨v, d, _, _, rfl⟩ := State.branchEffect_eq_ok h
    refine ⟨fun _ => rfl, fun _ => rfl, fun _ _ => ?_⟩
    dsimp only
    split <;> simp
  case halt | haltRestricted =>
    cases h
    simp [Instr.op]

/-- Why an effect fails: its first address outside the tape; or, the addresses being in bounds, IN has no input or a
result is out of range. -/
theorem State.effectOf_eq_error {s : State} {i : Instr} {c : Cause} (h : s.effectOf i = .error c) :
    (∃ p, s.FirstOutOfBounds i.checkedAddresses p ∧ c = .outOfBounds p) ∨
    (c = .inputExhausted ∧ i.op = .input ∧ s.inValid = false) ∨
    (c = .overflow ∧ (i.op = .add ∨ i.op = .mul ∨ i.op = .addRestricted ∨ i.op = .mulRestricted)) := by
  have hbin : ∀ {result : Int → Int → Except Cause Int} {a b : Operand} {dst : Int},
      s.binaryEffect result a b dst = .error c →
      (∃ p, s.FirstOutOfBounds (a.addresses ++ b.addresses ++ [dst]) p ∧ c = .outOfBounds p) ∨
        ∃ x y, result x y = .error c := by
    intro result a b dst h
    unfold State.binaryEffect at h
    split at h
    · rename_i c' hc
      cases h
      rw [List.append_assoc]
      exact .inl (State.resolveRRW_eq_error.mp hc)
    · split at h
      · rename_i hr
        cases h
        exact .inr ⟨_, _, hr⟩
      · cases h
  have hchk : ∀ {r : Int}, checkedResult s.config.width r = .error c → c = .overflow := by
    intro r h
    unfold checkedResult at h
    split at h
    · cases h
    · cases h
      rfl
  have hbr : ∀ {taken : Int → Bool} {a b : Operand}, s.branchEffect taken a b = .error c →
      ∃ p, s.FirstOutOfBounds (a.addresses ++ b.addresses) p ∧ c = .outOfBounds p := by
    intro taken a b h
    unfold State.branchEffect at h
    split at h
    · rename_i c' hc
      cases h
      exact State.resolveRR_eq_error.mp hc
    · cases h
  cases i <;> simp only [State.effectOf] at h
  case add | mul | addRestricted | mulRestricted =>
    rcases hbin h with hp | ⟨x, y, hr⟩
    · exact .inl hp
    · exact .inr (.inr ⟨hchk hr, by simp [Instr.op]⟩)
  case lt | eq =>
    rcases hbin h with hp | ⟨x, y, hr⟩
    · exact .inl hp
    · cases hr
  case jit | jif => exact .inl (hbr h)
  case halt | haltRestricted => cases h
  case output val =>
    rcases s.readOperand_cases val with ⟨x, hv, _⟩ | ⟨q, hv, fv⟩
    · simp [State.outputEffect, hv] at h
    · simp only [State.outputEffect, hv, Except.error.injEq] at h
      have := (fv [] q).mpr rfl
      rw [List.append_nil] at this
      exact .inl ⟨q, this, h.symm⟩
  case input dst =>
    rcases s.destination_cases dst with ⟨hd, _⟩ | ⟨hd, fd⟩
    · cases hv : s.inValid with
      | false =>
        simp only [State.inputEffect, hd, hv, Bool.false_eq_true, if_false, Except.error.injEq] at h
        exact .inr (.inl ⟨h.symm, rfl, rfl⟩)
      | true => simp [State.inputEffect, hd, hv] at h
    · simp only [State.inputEffect, hd, Except.error.injEq] at h
      exact .inl ⟨dst, (fd dst).mpr rfl, h.symm⟩

/-- An instruction with an address outside the tape fails with the first of them. -/
theorem State.effectOf_outOfBounds {s : State} {i : Instr} {p : Int} (h : s.FirstOutOfBounds i.checkedAddresses p) :
    s.effectOf i = .error (.outOfBounds p) := by
  have hbin : ∀ (result : Int → Int → Except Cause Int) {a b : Operand} {dst : Int},
      s.FirstOutOfBounds (a.addresses ++ b.addresses ++ [dst]) p →
      s.binaryEffect result a b dst = .error (.outOfBounds p) := by
    intro result a b dst h
    rw [List.append_assoc] at h
    simp only [State.binaryEffect, State.resolveRRW_eq_error.mpr ⟨p, h, rfl⟩]
  have hbr : ∀ (taken : Int → Bool) {a b : Operand}, s.FirstOutOfBounds (a.addresses ++ b.addresses) p →
      s.branchEffect taken a b = .error (.outOfBounds p) := by
    intro taken a b h
    simp only [State.branchEffect, State.resolveRR_eq_error.mpr ⟨p, h, rfl⟩]
  cases i <;> simp only [State.effectOf] <;> simp only [Instr.checkedAddresses] at h
  case add | mul | lt | eq => exact hbin _ h
  case addRestricted p₁ p₂ dst | mulRestricted p₁ p₂ dst => exact hbin _ (a := .position p₁) (b := .position p₂) h
  case jit | jif => exact hbr _ h
  case halt | haltRestricted => exact h.elim
  case output val =>
    rw [← List.append_nil val.addresses] at h
    rcases s.readOperand_cases val with ⟨x, hv, fv⟩ | ⟨q, hv, fv⟩
    · exact ((fv [] p).mp h).elim
    · rw [(fv [] p).mp h]
      simp only [State.outputEffect, hv]
  case input dst =>
    rcases s.destination_cases dst with ⟨_, fd⟩ | ⟨hd, fd⟩
    · exact ((fd p).mp h).elim
    · rw [(fd p).mp h]
      simp only [State.inputEffect, hd]

/-- What executing an instruction can do: raise the cause of its effect, or commit its effect, after its write. -/
theorem exec_cases (i : Instr) (s : State) :
    (∃ c, s.effectOf i = .error c ∧ exec i s = .next (s.raise c)) ∨
    (∃ e, s.effectOf i = .ok e ∧ i.destination = none ∧ e.write = none ∧
      exec i s = .next (s.commitRegisters i.op.count e)) ∨
    (∃ e d v, s.effectOf i = .ok e ∧ i.destination = some d ∧ s.InBounds d ∧ e.write = some (d, v) ∧
      exec i s = .next ((s.setCell d v).commitRegisters i.op.count e)) := by
  rw [exec_eq_finish]
  cases he : s.effectOf i with
  | error c => exact .inl ⟨c, rfl, rfl⟩
  | ok e =>
    have hw := State.effectOf_write he
    cases hd : i.destination with
    | none =>
      rw [hd] at hw
      exact .inr (.inl ⟨e, rfl, rfl, hw, State.finish_noWrite s _ hw⟩)
    | some d =>
      rw [hd] at hw
      obtain ⟨hb, v, hv⟩ := hw
      exact .inr (.inr ⟨e, d, v, rfl, rfl, hb, hv, State.finish_write _ hv hb⟩)

/-- What a step can do: it is taken by a Running block only, and either a check before execution fails or the fetched
instruction is executed. -/
theorem step_cases {s t : State} (h : step s = .next t) :
    s.status = .running ∧
      ((∃ c, s.fetchInstr = .error c ∧ t = s.raise c) ∨ ∃ i, s.fetchInstr = .ok i ∧ exec i s = .next t) := by
  unfold step at h
  split at h
  · rename_i hs
    refine ⟨hs, ?_⟩
    split at h
    · rename_i c hc
      cases h
      exact .inl ⟨c, hc, rfl⟩
    · rename_i i hi
      exact .inr ⟨i, hi, h⟩
  · cases h
  · cases h

theorem step_of_fetch_ok {s : State} {i : Instr} (hs : s.status = .running) (h : s.fetchInstr = .ok i) :
    step s = exec i s := by
  simp [step, hs, h]

theorem step_of_fetch_error {s : State} {c : Cause} (hs : s.status = .running) (h : s.fetchInstr = .error c) :
    step s = .next (s.raise c) := by
  simp [step, hs, h]

/-- A Running block below its ceiling passes the ceiling check. -/
theorem State.Ready.below {s : State} (h : s.Ready) : s.ceilingReached = false := by
  unfold State.ceilingReached
  cases hc : s.config.ceiling with
  | none => rfl
  | some c => simpa using h.2 c hc

/-- What an instruction that was fetched is: its encoding stands at `ip`, in bounds, and it is one of the run mode's. -/
theorem State.fetchInstr_eq_ok {s : State} {i : Instr} (h : s.fetchInstr = .ok i) :
    s.ceilingReached = false ∧ s.InstrAtIp i := by
  unfold State.fetchInstr at h
  split at h
  · cases h
  rename_i hc
  split at h
  · cases h
  rename_i w hw
  split at h
  · cases h
  rename_i d hd
  obtain ⟨hb, rfl⟩ := State.memRead_eq_ok.mp hw
  obtain ⟨hword, hmode, hlegal⟩ := decodeWord_eq_ok hd
  obtain ⟨hop, cells, he, hlen, hcells⟩ := Decoded.build_eq_ok hlegal h
  refine ⟨by simpa using hc, by rw [hop, hmode], ?_⟩
  intro k v hk
  rw [he] at hk
  cases k with
  | zero =>
    simp only [List.getElem?_cons_zero, Option.some.injEq] at hk
    simpa [hword, hk] using hb
  | succ k =>
    exact State.memRead_eq_ok.mp (hcells k v (by simpa using hk))

/-- Why a fetch fails: the ceiling, the word's address, the word, or an operand cell's address. -/
theorem State.fetchInstr_eq_error {s : State} {c : Cause} (h : s.fetchInstr = .error c) :
    (s.ceilingReached = true ∧ c = .runawayProgram) ∨
    (s.ceilingReached = false ∧ ((∃ a, ¬ s.InBounds a ∧ c = .outOfBounds a) ∨
      ∃ r, s.InBounds s.ip ∧ decodeWord s.config.mode (s.cell s.ip) = .error r ∧
        c = .illegalOpcode r (s.cell s.ip))) := by
  have hread : ∀ {a : Int} {c : Cause}, s.memRead a = .error c → ¬ s.InBounds a ∧ c = .outOfBounds a := by
    intro a c h
    by_cases hb : s.InBounds a
    · rw [State.memRead_inBounds hb] at h
      cases h
    · rw [State.memRead_outside hb] at h
      cases h
      exact ⟨hb, rfl⟩
  unfold State.fetchInstr at h
  split at h
  · rename_i hc
    cases h
    exact .inl ⟨hc, rfl⟩
  rename_i hc
  refine .inr ⟨by simpa using hc, ?_⟩
  split at h
  · rename_i c' hw
    cases h
    exact .inl ⟨_, hread hw⟩
  rename_i w hw
  obtain ⟨hb, rfl⟩ := State.memRead_eq_ok.mp hw
  split at h
  · rename_i r hr
    cases h
    exact .inr ⟨r, hb, hr, rfl⟩
  simp only [Decoded.build, build1, build2, build3] at h
  repeat' split at h
  all_goals first
    | (cases h; done)
    | (rename_i hk; cases h; exact .inl ⟨_, hread hk⟩)

/-- An instruction whose encoding stands at `ip` is fetched. -/
theorem State.fetchInstr_of_instrAtIp {s : State} {i : Instr} (hc : s.ceilingReached = false) (h : s.InstrAtIp i) :
    s.fetchInstr = .ok i := by
  obtain ⟨hm, hcells⟩ := h
  obtain ⟨w, cells, d, he, hw, hop, hlen, hb⟩ := i.decode_word
  rw [he] at hcells
  have h0 := hcells 0 w rfl
  simp only [Nat.cast_zero, Int.add_zero] at h0
  have hbuild := hb (fun k => s.memRead (s.ip + (k : Int))) fun k v hk =>
    State.memRead_eq_ok.mpr (hcells (k + 1) v (by simpa using hk))
  simp [State.fetchInstr, hc, State.memRead_inBounds h0.1, h0.2, ← hm, hw, hbuild]

/-- An instruction that completes commits its effect: its registers, after its write, if any. -/
theorem exec_completed {i : Instr} {s t : State} (h : exec i s = .next t) (ht : t.status.isFaulted = false) :
    ∃ e, s.effectOf i = .ok e ∧
      ((i.destination = none ∧ e.write = none ∧ t = s.commitRegisters i.op.count e) ∨
        ∃ d v, i.destination = some d ∧ s.InBounds d ∧ e.write = some (d, v) ∧
          t = (s.setCell d v).commitRegisters i.op.count e) := by
  rcases exec_cases i s with ⟨c, _, hx⟩ | ⟨e, he, hd, hw, hx⟩ | ⟨e, d, v, he, hd, hb, hw, hx⟩
  · rw [hx, Host.Outcome.next.injEq] at h
    subst h
    simp [RunStatus.isFaulted] at ht
  · rw [hx, Host.Outcome.next.injEq] at h
    exact ⟨e, he, .inl ⟨hd, hw, h.symm⟩⟩
  · rw [hx, Host.Outcome.next.injEq] at h
    exact ⟨e, he, .inr ⟨d, v, hd, hb, hw, h.symm⟩⟩

/-- A step that does not end Faulted executes the instruction whose encoding stands at `ip`, below the ceiling. -/
theorem step_completed {s t : State} (h : step s = .next t) (ht : t.status.isFaulted = false) :
    s.status = .running ∧ s.ceilingReached = false ∧ ∃ i, s.InstrAtIp i ∧ exec i s = .next t := by
  obtain ⟨hs, ⟨c, _, rfl⟩ | ⟨i, hi, hx⟩⟩ := step_cases h
  · simp [RunStatus.isFaulted] at ht
  · have hf := State.fetchInstr_eq_ok hi
    exact ⟨hs, hf.1, i, hf.2, hx⟩

/-- A step or an execution that ends Faulted, from a state that is not, raised a cause. -/
theorem exec_faulted {i : Instr} {s t : State} (hs : s.status.isFaulted = false) (h : exec i s = .next t)
    (ht : t.status.isFaulted = true) : ∃ c, s.effectOf i = .error c ∧ t = s.raise c := by
  have hn : ∀ r, (nextStatus s.status r).isFaulted = false := by
    intro r
    cases r <;> first | exact hs | rfl
  rcases exec_cases i s with ⟨c, hc, hx⟩ | ⟨e, he, hd, hw, hx⟩ | ⟨e, d, v, he, hd, hb, hw, hx⟩
  · rw [hx, Host.Outcome.next.injEq] at h
    exact ⟨c, hc, h.symm⟩
  · rw [hx, Host.Outcome.next.injEq] at h
    subst h
    simp [hn] at ht
  · rw [hx, Host.Outcome.next.injEq] at h
    subst h
    simp [hn] at ht

theorem step_faulted {s t : State} (h : step s = .next t) (ht : t.status.isFaulted = true) :
    s.status = .running ∧ ∃ c, t = s.raise c := by
  obtain ⟨hs, ⟨c, _, rfl⟩ | ⟨i, _, hx⟩⟩ := step_cases h
  · exact ⟨hs, c, rfl⟩
  · obtain ⟨c, _, rfl⟩ := exec_faulted (by rw [hs]; rfl) hx ht
    exact ⟨hs, c, rfl⟩

end Sys2Proof.Machine
end

