-- ==== Sys2Proof/Laws/PerInstr.lean ====
section
/-! SUPPORT. The family RoundTrip: for each constructor, decoding the encoding of a well-formed instruction gives it
back, with the cells that follow left over (spec/30_encoding.md R43, R54, R55, R58). -/

namespace Sys2Proof.Laws.RoundTrip

/-- Decoding the cells of the instruction, in a run mode it is well-formed for, gives it back. -/
def Statement (i : Instr) : Prop :=
  ∀ (W : Nat) (m : RunMode) (rest : List Int), i.wellFormed W m = true → decode m (encode i ++ rest) = .ok (i, rest)

/-- A well-formed instruction's operation is one of the run mode's. -/
theorem runMode_of_wellFormed {W : Nat} {m : RunMode} {i : Instr} (h : i.wellFormed W m = true) : i.op.runMode = m := by
  simp only [Instr.wellFormed, Bool.and_eq_true, decide_eq_true_eq] at h
  exact h.2

theorem of_decode_encode_append (i : Instr) : Statement i := by
  intro W m rest h
  rw [← runMode_of_wellFormed h]
  exact decode_encode_append i rest

theorem add (a b : Operand) (dst : Int) : Statement (.add a b dst) := of_decode_encode_append _
theorem mul (a b : Operand) (dst : Int) : Statement (.mul a b dst) := of_decode_encode_append _
theorem input (dst : Int) : Statement (.input dst) := of_decode_encode_append _
theorem output (val : Operand) : Statement (.output val) := of_decode_encode_append _
theorem jit (val target : Operand) : Statement (.jit val target) := of_decode_encode_append _
theorem jif (val target : Operand) : Statement (.jif val target) := of_decode_encode_append _
theorem lt (a b : Operand) (dst : Int) : Statement (.lt a b dst) := of_decode_encode_append _
theorem eq (a b : Operand) (dst : Int) : Statement (.eq a b dst) := of_decode_encode_append _
theorem halt : Statement .halt := of_decode_encode_append _
theorem addRestricted (p₁ p₂ dst : Int) : Statement (.addRestricted p₁ p₂ dst) := of_decode_encode_append _
theorem mulRestricted (p₁ p₂ dst : Int) : Statement (.mulRestricted p₁ p₂ dst) := of_decode_encode_append _
theorem haltRestricted : Statement .haltRestricted := of_decode_encode_append _

end Sys2Proof.Laws.RoundTrip
end

