-- ==== Sys2Proof/Tests/Slice0.lean ====
section
/-! SUPPORT. The model's own tests. Every expected value comes from a vector or listing of spec/95_test_vectors.md
(named in the docstring) or is worked out by hand from the rule named there. The witnesses at the end show, for each
statement with hypotheses, states and operands that meet them. -/

namespace Sys2Proof.Tests

open Sys2Proof.Machine

/-- A launch of 64-bit cells without a ceiling. -/
def run (mode : LaunchMode) (program : List Int) : State :=
  State.launch { width := 64, mode := mode, ceiling := none, program := program }

/-- A launch with a ceiling. -/
def runUnder (ceiling : Nat) (mode : LaunchMode) (program : List Int) : State :=
  State.launch { width := 64, mode := mode, ceiling := some ceiling, program := program }

/-- The outcome is a next state of which `p` holds. -/
def nextIs (o : Host.Outcome State Fault Refusal) (p : State → Bool) : Bool :=
  match o with
  | .next t => p t
  | .fault _ => false
  | .refused _ => false

theorem exists_of_nextIs {o : Host.Outcome State Fault Refusal} {p : State → Bool} (h : nextIs o p = true) :
    ∃ t, o = .next t ∧ p t = true := by
  cases o with
  | next t => exact ⟨t, rfl, h⟩
  | fault r => cases h
  | refused r => cases h

/-- `ip`, `steps` and one cell of a Running state. -/
def at_ (ip : Int) (steps : Nat) (a : Nat) (v : Int) (t : State) : Bool :=
  decide (t.status = .running ∧ t.ip = ip ∧ t.steps = steps ∧ t.tape.get a = v)

/-- The status and record of a fault. -/
def faults (kind : FaultKind) (ip : Int) (info : FaultInfo) (t : State) : Bool :=
  decide (t.status = .faulted kind ∧ t.fault = some { kind := kind, faultIp := ip, info := info })

/-! ### Well-formedness: an ill-formed instruction for each check -/

/-- R6: an operand cell outside `Int_W` is refused (here `2^63` at W = 64). -/
theorem test_illFormed_operand : (Instr.output (.immediate 9223372036854775808)).wellFormed 64 .full = false := by decide
theorem test_illFormed_first_operand : (Instr.add (.position 9223372036854775808) (.position 0) 0).wellFormed 64 .full = false := by decide
theorem test_illFormed_second_operand : (Instr.jit (.position 0) (.immediate (-9223372036854775809))).wellFormed 64 .full = false := by decide
theorem test_illFormed_destination : (Instr.input (-9223372036854775809)).wellFormed 64 .full = false := by decide
theorem test_illFormed_restricted_operand : (Instr.mulRestricted 0 0 9223372036854775808).wellFormed 64 .restricted = false := by decide
/-- R54, R55: an operation of the other run mode is refused. -/
theorem test_illFormed_mode : (Instr.addRestricted 0 0 0).wellFormed 64 .full = false := by decide
theorem test_illFormed_mode_restricted : (Instr.halt).wellFormed 64 .restricted = false := by decide
/-- The least and the greatest value of `Int_64` are admitted. -/
theorem test_wellFormed_extremes : (Instr.jif (.immediate (-9223372036854775808)) (.immediate 9223372036854775807)).wellFormed 64 .full = true := by decide

/-! ### Decoding: a word of every constructor, written from its digits (R43, R45), and the illegal words -/

/-- L1-9 listing, addresses 36 and 22. -/
theorem test_decode_add : decode .full [1101, 1000, 1, 20] = .ok (.add (.immediate 1000) (.immediate 1) 20, []) := by decide
theorem test_decode_mul : decode .full [1002, 21, 125, 20] = .ok (.mul (.position 21) (.immediate 125) 20, []) := by decide
/-- L1-9 listing, addresses 0, 31, 6, 13, 9, 2 and 46. -/
theorem test_decode_in : decode .full [3, 21, 1008] = .ok (.input 21, [1008]) := by decide
theorem test_decode_out : decode .full [104, 999] = .ok (.output (.immediate 999), []) := by decide
theorem test_decode_jit : decode .full [1005, 20, 22] = .ok (.jit (.position 20) (.immediate 22), []) := by decide
theorem test_decode_jif : decode .full [1006, 20, 31] = .ok (.jif (.position 20) (.immediate 31), []) := by decide
theorem test_decode_lt : decode .full [107, 8, 21, 20] = .ok (.lt (.immediate 8) (.position 21) 20, []) := by decide
theorem test_decode_eq : decode .full [1008, 21, 8, 20] = .ok (.eq (.position 21) (.immediate 8) 20, []) := by decide
theorem test_decode_halt : decode .full [99] = .ok (.halt, []) := by decide
/-- RM-1, RM-5, HALT-1. -/
theorem test_decode_add_restricted : decode .restricted [1, 5, 6, 0, 99] = .ok (.addRestricted 5 6 0, [99]) := by decide
theorem test_decode_mul_restricted : decode .restricted [2, 0, 5, 0, 99] = .ok (.mulRestricted 0 5 0, [99]) := by decide
theorem test_decode_halt_restricted : decode .restricted [99] = .ok (.haltRestricted, []) := by decide

/-- DEC-1 to DEC-6. -/
theorem test_decode_negative : decodeWord .full (-1) = .error .negativeWord := by decide
theorem test_decode_unknown : [0, 9, 98, 100, 5000].all (fun w => decide (decodeWord .full w = .error .unknownOpcode)) = true := by decide
/-- DEC-7 to DEC-9, DEC-16. -/
theorem test_decode_badMode : [201, 2001, 20001, 12001].all (fun w => decide (decodeWord .full w = .error .badMode)) = true := by decide
/-- DEC-10, DEC-11. -/
theorem test_decode_immediateDestination : [10001, 103].all (fun w => decide (decodeWord .full w = .error .immediateDestination)) = true := by decide
/-- DEC-12 to DEC-14. -/
theorem test_decode_excessDigits : [1104, 199, 100001].all (fun w => decide (decodeWord .full w = .error .excessDigits)) = true := by decide
/-- RM-2 to RM-4. -/
theorem test_decode_restricted_unknown : [1001, 3, -1].all (fun w => decide (decodeWord .restricted w = .error .unknownOpcode)) = true := by decide
/-- R67: a list that ends before the third operand cell. -/
theorem test_decode_truncated : decode .full [1, 0, 0] = .error (.truncated 3) := by decide
/-- R58: `MUL [4], #3, [4]` assembles to `1002,4,3,4`. -/
theorem test_encode_mul : encode (.mul (.position 4) (.immediate 3) 4) = [1002, 4, 3, 4] := by decide

/-! ### One step of each instruction -/

/-- ADD-1, ADD-2. -/
theorem test_add : nextIs (step (run (.full 0) [1101, -5, 7, 5, 99, 0])) (at_ 4 1 5 2) = true := by decide
theorem test_add_overflow : nextIs (step (run (.full 0) [1101, 9223372036854775807, 1, 0, 99])) (faults .overflow 0 .empty) = true := by decide
/-- MUL-4, MUL-3. -/
theorem test_mul : nextIs (step (run (.full 0) [1102, -9223372036854775808, 1, 5, 99, 0])) (at_ 4 1 5 (-9223372036854775808)) = true := by decide
theorem test_mul_overflow : nextIs (step (run (.full 0) [1102, -1, -9223372036854775808, 0, 99])) (faults .overflow 0 .empty) = true := by decide
/-- LT-3, LT-4. -/
theorem test_lt_signed : nextIs (step (run (.full 0) [1107, -9223372036854775808, 9223372036854775807, 5, 99, 7])) (at_ 4 1 5 1) = true := by decide
theorem test_lt_position : nextIs (step (run (.full 0) [7, 5, 6, 7, 99, 2, 1, 9])) (at_ 4 1 7 0) = true := by decide
/-- EQ-3, EQ-2. -/
theorem test_eq_same_cell : nextIs (step (run (.full 0) [8, 5, 5, 6, 99, 42, 0])) (at_ 4 1 6 1) = true := by decide
theorem test_eq_differ : nextIs (step (run (.full 0) [1108, 0, 1, 5, 99, 7])) (at_ 4 1 5 0) = true := by decide
/-- IN-2, IN-4 (its second step). -/
theorem test_in : nextIs (step (run (.full (-7)) [3, 3, 99, 0])) (fun t => at_ 2 1 3 (-7) t && !t.inValid) = true := by decide
theorem test_in_out_of_bounds_first : nextIs (step { run (.full 5) [5, 0, 3, 9] with ip := 2, inValid := false }) (faults .outOfBounds 2 (.address 9)) = true := by decide
/-- OUT-2, and OUT-1 through the table's bit numbering, as the host runs it. -/
theorem test_out : nextIs (step (run (.full 0) [4, 3, 99, -12])) (fun t => at_ 2 1 3 (-12) t && decide (t.outValue = -12) && t.outValid) = true := by decide
theorem test_out_withFetchWord : nextIs (step (State.reset.withFetchWord 8 104)) (fun t => at_ 2 1 0 104 t && decide (t.outValue = 0) && t.outValid) = true := by decide
/-- JIT-4, JIT-2. -/
theorem test_jit_taken : nextIs (step (run (.full 0) [5, 5, 6, 0, 99, 1, 4])) (at_ 4 1 0 5) = true := by decide
theorem test_jit_not_taken : nextIs (step (run (.full 0) [1105, 0, 4, 99, 0])) (at_ 3 1 0 1105) = true := by decide
/-- JIF-3, JIF-2. -/
theorem test_jif_taken : nextIs (step (run (.full 0) [6, 5, 6, 0, 99, 0, 4])) (at_ 4 1 0 6) = true := by decide
theorem test_jif_not_taken : nextIs (step (run (.full 0) [1106, -1, 4, 99, 0])) (at_ 3 1 0 1106) = true := by decide
/-- HALT-2: Halted at 0 after one step, result NoOutput. -/
theorem test_halt : nextIs (step (run (.full 0) [99])) (fun t => decide (t.status = .halted ∧ t.ip = 0 ∧ t.steps = 1 ∧ t.result = some (.error .noOutput))) = true := by decide
/-- RM-1, RM-5. -/
theorem test_add_restricted : nextIs (step (run .restricted [1, 5, 6, 0, 99, 3, 4])) (at_ 4 1 0 7) = true := by decide
theorem test_mul_restricted : nextIs (step (run .restricted [2, 0, 5, 0, 99, 7])) (at_ 4 1 0 14) = true := by decide
/-- HALT-1: the restricted result is `tape[0]`. -/
theorem test_halt_restricted : nextIs (step (run .restricted [99])) (fun t => decide (t.status = .halted ∧ t.result = some (.ok 99))) = true := by decide

/-! ### The sequencer's checks -/

/-- RES-4: the operand cell past the end; RES-5: the smallest operand is reported; DEC-15: the illegal word first. -/
theorem test_operand_cell_out : nextIs (step (run (.full 0) [1, 0, 0])) (faults .outOfBounds 0 (.address 3)) = true := by decide
theorem test_smallest_operand : nextIs (step (run (.full 0) [1, 0, 9, 9])) (faults .outOfBounds 0 (.address 9)) = true := by decide
theorem test_illegal_before_operands : nextIs (step (run (.full 0) [10001])) (faults .illegalOpcode 0 (.word .immediateDestination 10001)) = true := by decide
/-- SEQ-2, SEQ-5; JIT-6 (its second step). -/
theorem test_empty_tape : nextIs (step (run (.full 0) [])) (faults .outOfBounds 0 (.address 0)) = true := by decide
theorem test_ceiling_zero : nextIs (step (runUnder 0 .restricted [99])) (faults .runawayProgram 0 .empty) = true := by decide
theorem test_negative_ip : nextIs (step { run (.full 0) [1105, 1, -1] with ip := -1 }) (faults .outOfBounds (-1) (.address (-1))) = true := by decide
/-- R88: the numeric codes. -/
theorem test_fault_codes : ([.illegalOpcode, .outOfBounds, .inputExhausted, .runawayProgram, .overflow, .noOutput, .parseError] : List FaultKind).map FaultKind.code = [1, 2, 3, 4, 5, 6, 7] := by decide

/-! ### The table's bit numbering, as the host asks -/

/-- OUT, word 4, position mode, operand cell 0. -/
theorem test_table_out : decodeTableWord 8 4 = some (.output (.position 0)) := by decide
/-- A word of `2^64 - 1` is the cell -1, a NegativeWord. -/
theorem test_table_negative : decodeTableWord 64 18446744073709551615 = none := by decide

/-! ### The host's side -/

/-- R104: blanks around tokens, an empty token skipped; R94: a malformed token, a token outside `Int_64`. -/
theorem test_parse : parseProgram 64 ['1', '0', ',', '-', '3', '\n', ',', ' '] = .ok [10, -3] := by decide
theorem test_parse_malformed : parseProgram 64 ['1', ',', '2', 'x'] = .error .parseError := by decide
theorem test_parse_range : parseProgram 3 ['4'] = .error .parseError := by decide
/-- R106: the two patches; a cell that does not exist. -/
theorem test_patch : patchCells [(1, 12), (2, 2)] [1, 0, 0, 3] = some [1, 12, 2, 3] := by decide
theorem test_patch_absent : patchCells [(1, 12)] [99] = none := by decide

/-! ### Witnesses: states and operands that meet the hypotheses of each statement -/

/-- A full-mode state whose cells 20 and 21 hold values and whose first instruction is `ADD [20], #22, [4]`: the word
written, 42 + 57 = 99, is the next instruction's. -/
def wAdd : State := run (.full 5) [1001, 20, 57, 4, 0, 99, 0, 0, 0, 0, 0, 0, 0, 0, 0, 0, 0, 0, 0, 0, 42, -3]

theorem ready_run (mode : LaunchMode) (program : List Int) : (run mode program).Ready :=
  ⟨rfl, fun c h => by cases h⟩

theorem wAdd_cells : wAdd.CellsAtIp [1001, 20, 57, 4] := by
  intro k v hk
  match k with
  | 0 => cases hk; decide
  | 1 => cases hk; decide
  | 2 => cases hk; decide
  | 3 => cases hk; decide
  | k + 4 => cases hk

theorem wAdd_instr : wAdd.InstrAtIp (.add (.position 20) (.immediate 57) 4) := ⟨rfl, wAdd_cells⟩

/-- DecodeGivesBackEncodedInstruction, with an operand at the least value of `Int_W`. -/
theorem witness_encode : (Instr.lt (.position 7) (.immediate (-9223372036854775808)) 3).wellFormed 64 .full = true := by decide

/-- DecodedCellsAreTheEncoding; StepRunsDecodedInstruction; StepRunsEncodedInstruction. -/
theorem witness_decoded : wAdd.Ready ∧ wAdd.CellsAtIp [1001, 20, 57, 4] ∧ wAdd.InstrAtIp (.add (.position 20) (.immediate 57) 4) ∧
    decode wAdd.config.mode [1001, 20, 57, 4] = .ok (.add (.position 20) (.immediate 57) 4, []) :=
  ⟨ready_run _ _, wAdd_cells, wAdd_instr, by decide⟩

/-- FullDecoderReportsFirstFailingCheck: the words -1, 5000, 201, 10001, 100001 and 1101 meet its clauses in turn. -/
theorem witness_full_decoder :
    (-1 : Int) < 0 ∧ (∀ op : Op, op.runMode = .full → (5000 : Int).toNat % 100 ≠ op.number) ∧
    ((201 : Int).toNat % 100 = Op.add.number ∧ 2 ≤ digit 2 (201 : Int).toNat) ∧
    ((∀ k kind, Op.add.kinds[k]? = some kind → digit (k + 2) (10001 : Int).toNat < 2) ∧
      Op.add.kinds[2]? = some .write ∧ digit 4 (10001 : Int).toNat = 1) ∧
    ((∀ k kind, Op.add.kinds[k]? = some kind → digit (k + 2) (100001 : Int).toNat < 2) ∧
      (∀ k, Op.add.kinds[k]? = some .write → digit (k + 2) (100001 : Int).toNat = 0) ∧
      (100001 : Int).toNat / 10 ^ (Op.add.count + 2) ≠ 0) ∧
    ((∀ k kind, Op.add.kinds[k]? = some kind → digit (k + 2) (1101 : Int).toNat < 2) ∧
      (∀ k, Op.add.kinds[k]? = some .write → digit (k + 2) (1101 : Int).toNat = 0) ∧
      (1101 : Int).toNat / 10 ^ (Op.add.count + 2) = 0) := by
  have small : ∀ w : Nat, digit 2 w < 2 → digit 3 w < 2 → digit 4 w < 2 →
      ∀ k kind, Op.add.kinds[k]? = some kind → digit (k + 2) w < 2 := by
    intro w h0 h1 h2 k kind hk
    match k with
    | 0 => exact h0
    | 1 => exact h1
    | 2 => exact h2
    | k + 3 => cases hk
  have dest : ∀ w : Nat, digit 4 w = 0 → ∀ k, Op.add.kinds[k]? = some .write → digit (k + 2) w = 0 := by
    intro w h k hk
    match k with
    | 0 => cases hk
    | 1 => cases hk
    | 2 => exact h
    | k + 3 => cases hk
  refine ⟨by decide, fun op => ?_, by decide, ⟨small _ (by decide) (by decide) (by decide), by decide⟩,
    ⟨small _ (by decide) (by decide) (by decide), dest _ (by decide), by decide⟩,
    ⟨small _ (by decide) (by decide) (by decide), dest _ (by decide), by decide⟩⟩
  cases op <;> decide

/-- RestrictedModeAcceptsOnlyThreeWords (RM-2), NegativeWordFaults, UnknownOpcodeFaults (0, 9 and 98). -/
theorem witness_illegal_words :
    ((run .restricted [1001]).Ready ∧ (run .restricted [1001]).InBounds 0 ∧ (run .restricted [1001]).cell 0 = 1001) ∧
    ((run (.full 0) [-1]).Ready ∧ (run (.full 0) [-1]).InBounds 0 ∧ (run (.full 0) [-1]).cell 0 = -1) ∧
    ((run (.full 0) [98]).Ready ∧ (run (.full 0) [98]).InBounds 0 ∧ (run (.full 0) [98]).cell 0 = 98) ∧
    (0 : Int) % 100 = 0 ∧ (9 ≤ (9 : Int) % 100 ∧ (98 : Int) % 100 ≤ 98) :=
  ⟨⟨ready_run _ _, by decide, by decide⟩, ⟨ready_run _ _, by decide, by decide⟩, ⟨ready_run _ _, by decide, by decide⟩, by decide⟩

/-- A Halted state: `99` in restricted mode, one step on. -/
def wHalted : State := { run .restricted [99] with status := .halted, steps := 1 }

/-- TerminalBlockHasNoStep. -/
theorem witness_terminal : wHalted.status ≠ .running := by decide

/-- CeilingStopsTheRun: at the ceiling; below it; HALT as the CEILING-th instruction (SEQ-4, SEQ-5). -/
theorem witness_ceiling :
    ((runUnder 0 .restricted [99]).status = .running ∧ (runUnder 0 .restricted [99]).config.ceiling = some 0 ∧
      0 ≤ (runUnder 0 .restricted [99]).steps) ∧
    ((runUnder 1 .restricted [99]).Ready ∧ (runUnder 1 .restricted [99]).config.ceiling = some 1 ∧
      (runUnder 1 .restricted [99]).steps + 1 = 1 ∧ (runUnder 1 .restricted [99]).InstrAtIp .haltRestricted ∧
      ∃ t, step (runUnder 1 .restricted [99]) = .next t ∧ t.status.isFaulted = false) := by
  refine ⟨by decide, ⟨rfl, fun c h => ?_⟩, rfl, rfl, ⟨rfl, fun k v hk => ?_⟩, ?_⟩
  · cases h
    decide
  · match k with
    | 0 => cases hk; decide
    | k + 1 => cases hk
  · obtain ⟨t, h, hp⟩ := exists_of_nextIs (p := fun t => !t.status.isFaulted)
      (show nextIs (step (runUnder 1 .restricted [99])) _ = true by decide)
    exact ⟨t, h, by simpa using hp⟩

/-- FetchOutsideTheTapeFaults at the boundaries of its range: -1, LEN, 0, LEN - 1. -/
theorem witness_fetch :
    ({ run (.full 0) [99, 0] with ip := -1 } : State).Ready ∧ ({ run (.full 0) [99, 0] with ip := -1 } : State).ip < 0 ∧
    ((({ run (.full 0) [99, 0] with ip := 2 } : State).config.len : Nat) : Int) ≤ ({ run (.full 0) [99, 0] with ip := 2 } : State).ip ∧
    (run (.full 0) [99, 0]).InBounds 0 ∧ (run (.full 0) [99, 0]).InBounds 1 :=
  ⟨⟨rfl, fun c h => by cases h⟩, by decide⟩

/-- OperandCellOutsideTheTapeFaults: RES-4 (third operand cell), the first operand cell, and DEC-15 (illegal word). -/
theorem witness_operand_cell :
    ((run (.full 0) [1, 0, 0]).Ready ∧ (run (.full 0) [1, 0, 0]).InBounds 0 ∧
      decodeWord .full ((run (.full 0) [1, 0, 0]).cell 0) = .ok { op := .add, m₁ := .position, m₂ := .position } ∧
      (∀ j : Nat, 1 ≤ j → j < 3 → (0 : Int) + (j : Int) < ((run (.full 0) [1, 0, 0]).config.len : Int)) ∧
      (((run (.full 0) [1, 0, 0]).config.len : Nat) : Int) ≤ 0 + 3) ∧
    (decodeWord .full ((run (.full 0) [3]).cell 0) = .ok { op := .input, m₁ := .position, m₂ := .position } ∧
      (((run (.full 0) [3]).config.len : Nat) : Int) ≤ 0 + 1) ∧
    decodeWord .full ((run (.full 0) [10001]).cell 0) = .error .immediateDestination := by
  refine ⟨⟨ready_run _ _, by decide, by decide, fun j h1 h2 => ?_, by decide⟩, by decide, by decide⟩
  have : ((run (.full 0) [1, 0, 0]).config.len : Int) = 3 := rfl
  omega

/-- A step that completes: FaultEntryWritesTheRecord's other case; CompletedStepIsCounted, RunStatusTransitions,
IoRegistersMoveOneWay, ConfigurationIsConstant. -/
theorem witness_completed : ∃ t, step wAdd = .next t ∧ t.status.isFaulted = false ∧ wAdd.Reaches t := by
  obtain ⟨t, h, hp⟩ := exists_of_nextIs (p := fun t => !t.status.isFaulted)
    (show nextIs (step wAdd) _ = true by decide)
  exact ⟨t, h, by simpa using hp, .tail .refl h⟩

/-- FaultEntryWritesTheRecord: ADD-2. -/
theorem witness_faulted : ∃ t, step (run (.full 0) [1101, 9223372036854775807, 1, 0, 99]) = .next t ∧ t.status = .faulted .overflow := by
  obtain ⟨t, h, hp⟩ := exists_of_nextIs (p := fun t => decide (t.status = .faulted .overflow))
    (show nextIs (step (run (.full 0) [1101, 9223372036854775807, 1, 0, 99])) _ = true by decide)
  exact ⟨t, h, by simpa using hp⟩

/-- RestrictedModeLeavesIoAlone, RestrictedStepIsAFullModeStep: RM-1. -/
theorem witness_restricted : (run .restricted [1, 5, 6, 0, 99, 3, 4]).config.mode = .restricted ∧
    ∃ t, step (run .restricted [1, 5, 6, 0, 99, 3, 4]) = .next t ∧ t.status.isFaulted = false := by
  obtain ⟨t, h, hp⟩ := exists_of_nextIs (p := fun t => !t.status.isFaulted)
    (show nextIs (step (run .restricted [1, 5, 6, 0, 99, 3, 4])) _ = true by decide)
  exact ⟨rfl, t, h, by simpa using hp⟩

/-- AddCompletes, MulCompletes, LtCompletes, EqCompletes, AddRestrictedCompletes, MulRestrictedCompletes,
EffectIndependentOfAddressingModes: operands 42 (position and immediate) and 57; the destination the last cell. -/
theorem witness_binary : wAdd.status = .running ∧ wAdd.tape.wf = true ∧ wAdd.Denotes (.position 20) 42 ∧
    wAdd.Denotes (.immediate 42) 42 ∧ wAdd.Denotes (.immediate 57) 57 ∧ wAdd.InBounds 20 ∧ wAdd.InBounds 21 ∧
    InRange wAdd.config.width (42 + 57) ∧ InRange wAdd.config.width (42 * 57) ∧
    InRange wAdd.config.width (wAdd.cell 20 + wAdd.cell 21) ∧ InRange wAdd.config.width (wAdd.cell 20 * wAdd.cell 21) :=
  ⟨rfl, by decide, ⟨by decide, by decide⟩, rfl, rfl, by decide, by decide, by decide, by decide, by decide, by decide⟩

/-- InCompletes, OutCompletes, JitCompletes, JifCompletes (a true and a false condition, a target outside the tape),
HaltCompletes, CompletedInstructionFrame. -/
theorem witness_io_control : wAdd.status = .running ∧ wAdd.inValid = true ∧ wAdd.InBounds 0 ∧
    wAdd.Denotes (.position 21) (-3) ∧ wAdd.Denotes (.immediate 0) 0 ∧ wAdd.Denotes (.immediate (-1)) (-1) ∧
    ∃ t, exec (.output (.position 21)) wAdd = .next t ∧ t.status.isFaulted = false := by
  obtain ⟨t, h, hp⟩ := exists_of_nextIs (p := fun t => !t.status.isFaulted)
    (show nextIs (exec (.output (.position 21)) wAdd) _ = true by decide)
  exact ⟨rfl, rfl, by decide, ⟨by decide, by decide⟩, rfl, rfl, t, h, by simpa using hp⟩

/-- ResultOutOfRangeOverflows: MAX + 1 and MAX * 2, just outside `Int_64`. -/
theorem witness_overflow : wAdd.Denotes (.immediate 9223372036854775807) 9223372036854775807 ∧ wAdd.InBounds 0 ∧
    ¬ InRange wAdd.config.width (9223372036854775807 + 1) ∧ ¬ InRange wAdd.config.width (9223372036854775807 * 2) ∧
    (run .restricted [9223372036854775807]).Denotes (.position 0) 9223372036854775807 ∧
    ¬ InRange (run .restricted [9223372036854775807]).config.width (9223372036854775807 + 9223372036854775807) :=
  ⟨rfl, by decide, by decide, by decide, ⟨by decide, by decide⟩, by decide⟩

/-- InWithoutInputFaults: a destination in bounds, and the first one past the tape. -/
theorem witness_no_input : ({ wAdd with inValid := false } : State).inValid = false ∧
    ({ wAdd with inValid := false } : State).InBounds 21 ∧ ¬ ({ wAdd with inValid := false } : State).InBounds 22 := by decide

/-- FirstOperandOutOfBoundsIsReported: the second operand of `1,0,9,9` (RES-5), before the destination. -/
theorem witness_operand_out :
    (run (.full 0) [1, 0, 9, 9]).FirstOutOfBounds (Instr.add (.position 0) (.position 9) 9).checkedAddresses 9 := by
  simp only [Instr.checkedAddresses, Operand.addresses, List.cons_append, List.nil_append]
  rw [State.firstOutOfBounds_inBounds (by decide), State.firstOutOfBounds_outside (by decide)]

/-- WordWrittenByAddRunsNext: `wAdd` writes 99, HALT, into cell 4. -/
theorem witness_self_modifying : wAdd.Ready ∧ (∀ c, wAdd.config.ceiling = some c → wAdd.steps + 1 < c) ∧
    wAdd.tape.wf = true ∧ wAdd.InstrAtIp (.add (.position 20) (.immediate 57) (wAdd.ip + 4)) ∧
    wAdd.Denotes (.position 20) 42 ∧ wAdd.Denotes (.immediate 57) 57 ∧ wAdd.InBounds (wAdd.ip + 4) ∧
    InRange wAdd.config.width (42 + 57) ∧ Instr.halt.op.runMode = .full ∧ encode .halt = (42 + 57) :: [] :=
  ⟨ready_run _ _, fun c h => (by cases h), by decide, wAdd_instr, ⟨by decide, by decide⟩, rfl, by decide, by decide, rfl, by decide⟩

/-- ReadGivesLatestWrite. -/
theorem witness_memory : wAdd.tape.wf = true ∧ wAdd.InBounds 21 := by decide

/-- EveryLaunchMeetsTheInvariant, LaunchWithCeilingHasResult, in both run modes. -/
theorem witness_launch :
    ({ width := 32, mode := .full (-2147483648), ceiling := some 3, program := [104, 7, 99] } : Launch).wf = true ∧
    ({ width := 64, mode := .restricted, ceiling := some 0, program := [] } : Launch).wf = true := by decide

/-- The cells of `wHalted`. -/
theorem wHalted_cells (a : Nat) : wHalted.tape.get a = 99 ∨ wHalted.tape.get a = 0 := by
  cases a with
  | zero => exact .inl rfl
  | succ a => exact .inr rfl

/-- EveryStepKeepsTheInvariant, ResultSurfaceAtTerminalStatus: a Halted restricted-mode state with the invariant. -/
theorem witness_invariant : wHalted.Inv ∧ wHalted.status = .halted ∧ wHalted.config.mode = .restricted := by
  refine ⟨⟨by decide, by decide, trivial, fun _ => ⟨fun a => ?_, by decide, by decide, fun _ => rfl, fun _ => (by decide),
    fun c h => (by cases h), fun _ => ⟨by decide, _, rfl, rfl⟩⟩⟩, rfl, rfl⟩
  rcases wHalted_cells a with h | h <;> rw [h] <;> decide

/-- A Running state with the invariant and a next state. -/
theorem witness_invariant_step : (run .restricted [99]).Inv ∧ ∃ t, step (run .restricted [99]) = .next t := by
  refine ⟨⟨by decide, by decide, trivial, fun _ => ⟨fun a => ?_, by decide, by decide, fun _ => rfl, fun _ => (by decide),
    fun c h => (by cases h), fun h => (by cases h)⟩⟩, ?_⟩
  · have h : (run .restricted [99]).tape.get a = wHalted.tape.get a := rfl
    rw [h]
    rcases wHalted_cells a with h | h <;> rw [h] <;> decide
  · obtain ⟨t, h, _⟩ := exists_of_nextIs (p := fun _ => true)
      (show nextIs (step (run .restricted [99])) _ = true by decide)
    exact ⟨t, h⟩

/-- SafeRunKeepsValuesInRange: a Halted state leads to itself only. -/
theorem witness_safe_run : wHalted.SafeRun ∧ wHalted.Reaches wHalted := by
  have self : ∀ t, wHalted.Reaches t → t = wHalted := by
    intro t h
    induction h with
    | refl => rfl
    | tail _ hx ih =>
      subst ih
      cases hx
  exact ⟨fun t h => by rw [self t h]; rfl, .refl⟩

/-- RunWithCeilingTerminates. -/
theorem witness_run_ceiling : (runUnder 3 (.full 0) [1105, 1, 0]).status = .running ∧
    (runUnder 3 (.full 0) [1105, 1, 0]).config.ceiling = some 3 := by decide

/-- ResultSurfaceAtTerminalStatus: a Faulted state, and Halted full-mode states with and without an output. -/
theorem witness_result :
    ({ wAdd with status := .faulted .overflow } : State).status = .faulted .overflow ∧
    (({ wAdd with status := .halted, outValid := true } : State).status = .halted ∧ wAdd.config.mode = .full) ∧
    ({ wAdd with status := .halted } : State).outValid = false := by decide

/-- ParsedProgramFitsTheTape: a text that parses and one that does not. -/
theorem witness_parse : parseProgram 64 ['9', '9'] = .ok [99] ∧ parseProgram 64 ['x'] = .error .parseError := by decide

end Sys2Proof.Tests
end

/-! ## Proofs of the family 00_scope: the values of `Int_W`, the tape, the record and the invariant of the machine -/

/-! ### The rules of a step that the invariant rests on -/

namespace Sys2Proof.Machine

/-- The state after the tape write of an effect, before its registers are committed (spec/40_operands_and_sequencer.md
R60). -/
def State.written (s : State) (e : Effect) : State :=
  match e.write with
  | none => s
  | some (a, v) => s.setCell a v

section Written
variable (s : State) {e : Effect}

theorem State.written_of_none (h : e.write = none) : s.written e = s := by simp [State.written, h]

theorem State.written_of_some {a v : Int} (h : e.write = some (a, v)) : s.written e = s.setCell a v := by
  simp [State.written, h]

/-- The tape write touches the tape and nothing else. -/
theorem State.written_eq (s : State) (e : Effect) : s.written e = { s with tape := (s.written e).tape } := by
  unfold State.written
  split <;> rfl

@[simp] theorem State.written_config : (s.written e).config = s.config := by rw [State.written_eq]
@[simp] theorem State.written_ip : (s.written e).ip = s.ip := by rw [State.written_eq]
@[simp] theorem State.written_inValid : (s.written e).inValid = s.inValid := by rw [State.written_eq]
@[simp] theorem State.written_inValue : (s.written e).inValue = s.inValue := by rw [State.written_eq]
@[simp] theorem State.written_outValue : (s.written e).outValue = s.outValue := by rw [State.written_eq]
@[simp] theorem State.written_outValid : (s.written e).outValid = s.outValid := by rw [State.written_eq]
@[simp] theorem State.written_status : (s.written e).status = s.status := by rw [State.written_eq]
@[simp] theorem State.written_fault : (s.written e).fault = s.fault := by rw [State.written_eq]
@[simp] theorem State.written_steps : (s.written e).steps = s.steps := by rw [State.written_eq]

end Written

/-- The address an effect writes lies inside the tape. -/
theorem State.effectOf_write_inBounds {s : State} {i : Instr} {e : Effect} {a v : Int} (h : s.effectOf i = .ok e)
    (hw : e.write = some (a, v)) : s.InBounds a := by
  have hdst := State.effectOf_write h
  cases hi : i.destination with
  | none => simp [hi, hw] at hdst
  | some d =>
    obtain ⟨hd, x, hx⟩ : s.InBounds d ∧ ∃ x, e.write = some (d, x) := by simpa [hi] using hdst
    rw [hw] at hx
    cases hx
    exact hd

/-- The two ends of a step (R62): a cause is raised, or the whole effect of the instruction at `ip` is committed. -/
theorem step_raises_or_commits {s t : State} (h : step s = .next t) :
    s.status = .running ∧
      ((∃ c, t = s.raise c) ∨
        s.ceilingReached = false ∧ ∃ i e, s.InstrAtIp i ∧ s.effectOf i = .ok e ∧
          t = (s.written e).commitRegisters i.op.count e) := by
  cases ht : t.status.isFaulted with
  | true =>
    obtain ⟨hs, hc⟩ := step_faulted h ht
    exact ⟨hs, .inl hc⟩
  | false =>
    obtain ⟨hs, hceil, i, hi, hx⟩ := step_completed h ht
    obtain ⟨e, he, ⟨_, hw, rfl⟩ | ⟨d, v, _, _, hw, rfl⟩⟩ := exec_completed hx ht
    · exact ⟨hs, .inr ⟨hceil, i, e, hi, he, by rw [State.written_of_none s hw]⟩⟩
    · exact ⟨hs, .inr ⟨hceil, i, e, hi, he, by rw [State.written_of_some s hw]⟩⟩

/-- No step changes the configuration (spec/10_state.md R28). -/
theorem step_config {s t : State} (h : step s = .next t) : t.config = s.config := by
  obtain ⟨-, ⟨c, rfl⟩ | ⟨-, i, e, -, -, rfl⟩⟩ := step_raises_or_commits h <;> simp

theorem State.Reaches.config_eq {s t : State} (h : s.Reaches t) : t.config = s.config := by
  induction h with
  | refl => rfl
  | tail _ hstep ih => rw [step_config hstep, ih]

/-- The record a cause leaves has the info of its kind, and the kind is one that steps raise (spec/60_exceptions.md
R88). -/
theorem Cause.record_wf (c : Cause) (ip : Int) :
    ({ kind := c.kind, faultIp := ip, info := c.info } : FaultRecord).wf = true := by
  cases c <;> rfl

/-! ### The range of values (spec/00_scope.md R6, R7) -/

/-- R6 and R7 as inequalities: a half of `Int_W` holds the tape's addresses, the four cells past them and the values 0
and 1. -/
theorem Config.wf_bounds {c : Config} (h : c.wf = true) :
    1 < halfRange c.width ∧ (c.len : Int) + 4 ≤ halfRange c.width := by
  simp only [Config.wf, decide_eq_true_eq] at h
  omega

theorem inRange_zero (W : Nat) : InRange W 0 := by
  have hpos : 0 < halfRange W := by simp [halfRange]
  exact ⟨by omega, hpos⟩

theorem inRange_ite_one_zero {c : Config} (hc : c.wf = true) (p : Prop) [Decidable p] :
    InRange c.width (if p then 1 else 0) := by
  have := (Config.wf_bounds hc).1
  split <;> constructor <;> omega

/-- What an instruction at `ip` takes from the tape is in range when the tape's cells are. -/
theorem State.InstrAtIp.inRange_encode {s : State} {i : Instr} (h : s.InstrAtIp i)
    (hcells : ∀ a : Nat, InRange s.config.width (s.tape.get a)) : ∀ v ∈ encode i, InRange s.config.width v := by
  intro v hv
  obtain ⟨k, hk⟩ := List.getElem?_of_mem hv
  obtain ⟨-, rfl⟩ := h.2 k v hk
  exact hcells _

/-- The word at `ip` is in bounds and decodes to the operation of the instruction that stands there. -/
theorem State.InstrAtIp.word {s : State} {i : Instr} (h : s.InstrAtIp i) :
    s.InBounds s.ip ∧ ∃ d, decodeWord s.config.mode (s.cell s.ip) = .ok d ∧ d.op = i.op := by
  obtain ⟨w, cells, d, he, hdec, hop, -⟩ := i.decode_word
  obtain ⟨hmode, hcells⟩ := h
  obtain ⟨hb, hw⟩ := hcells 0 w (by simp [he])
  rw [Nat.cast_zero, Int.add_zero] at hb hw
  exact ⟨hb, d, by rw [hw, ← hmode, hdec], hop⟩

/-- An operand whose cell is in range denotes a value in range. -/
theorem State.Denotes.inRange {s : State} {o : Operand} {x : Int} (h : s.Denotes o x)
    (hcells : ∀ a : Nat, InRange s.config.width (s.tape.get a)) (ho : InRange s.config.width o.cell) :
    InRange s.config.width x := by
  cases o with
  | immediate v =>
    obtain rfl : x = v := h
    exact ho
  | position p =>
    obtain ⟨-, rfl⟩ : s.InBounds p ∧ x = s.cell p := h
    exact hcells _

/-- Every value an effect commits is one of `Int_W`. -/
structure Effect.Fits (W : Nat) (e : Effect) : Prop where
  write : ∀ a v, e.write = some (a, v) → InRange W v
  out : ∀ v, e.out = some v → InRange W v
  jump : ∀ v, e.req = .jump v → InRange W v

theorem Effect.fits_write {W : Nat} {a v : Int} {consume : Bool} (h : InRange W v) :
    Effect.Fits W { write := some (a, v), out := none, consume := consume, req := .advance } :=
  ⟨fun _ _ hw => by cases hw; exact h, nofun, nofun⟩

theorem Effect.Fits.outValue {W : Nat} {e : Effect} {old : Int} (h : e.Fits W) (hold : InRange W old) :
    InRange W (e.out.getD old) := by
  cases hout : e.out with
  | none => exact hold
  | some v => exact h.out v hout

/-- An instruction that stands at `ip` has an effect that fits: its result is checked or is 0 or 1, and every other value
comes from a cell or from `in_value`. -/
theorem State.effectOf_fits {s : State} {i : Instr} {e : Effect} (hc : s.config.wf = true) (hv : s.ValuesOk)
    (hi : s.InstrAtIp i) (h : s.effectOf i = .ok e) : e.Fits s.config.width := by
  have henc := hi.inRange_encode hv.cells
  cases i <;> simp only [State.effectOf] at h
  case add | mul | addRestricted | mulRestricted =>
    obtain ⟨x, y, r, -, -, -, hr, rfl⟩ := State.binaryEffect_eq_ok h
    obtain ⟨hrange, rfl⟩ := checkedResult_eq_ok.mp hr
    exact Effect.fits_write hrange
  case lt | eq =>
    obtain ⟨x, y, r, -, -, -, hr, rfl⟩ := State.binaryEffect_eq_ok h
    cases hr
    exact Effect.fits_write (inRange_ite_one_zero hc _)
  case input =>
    obtain ⟨-, -, rfl⟩ := State.inputEffect_eq_ok h
    exact Effect.fits_write hv.io.1
  case output val =>
    obtain ⟨v, hval, rfl⟩ := State.outputEffect_eq_ok h
    have hrange := hval.inRange hv.cells (henc _ (by simp [encode]))
    exact ⟨nofun, fun _ ho => by cases ho; exact hrange, nofun⟩
  case jit val target | jif val target =>
    obtain ⟨v, d, -, htarget, rfl⟩ := State.branchEffect_eq_ok h
    have hrange := htarget.inRange hv.cells (henc _ (by simp [encode]))
    refine ⟨nofun, nofun, fun _ hj => ?_⟩
    dsimp only at hj
    split at hj <;> cases hj
    exact hrange
  case halt | haltRestricted =>
    cases h
    exact ⟨nofun, nofun, nofun⟩

/-- Only HALT requests a halt, and it writes no cell. -/
theorem State.effectOf_req_halt {s : State} {i : Instr} {e : Effect} (h : s.effectOf i = .ok e)
    (hreq : e.req = .halt) : e.write = none ∧ i.op.number = 99 := by
  obtain ⟨-, -, hother⟩ := State.effectOf_other h
  cases i
  case halt | haltRestricted =>
    cases h
    exact ⟨rfl, rfl⟩
  all_goals exact absurd hreq (hother nofun nofun)

/-- Where the next step fetches is in range: past an instruction inside the tape, or at a jump target in range. -/
theorem State.nextIp_inRange {s : State} {op : Op} {req : IpReq} (hc : s.config.wf = true) (hip : s.InBounds s.ip)
    (hjump : ∀ v, req = .jump v → InRange s.config.width v) : InRange s.config.width (nextIp s.ip op.count req) := by
  obtain ⟨-, hlen⟩ := Config.wf_bounds hc
  have hcount : op.count ≤ 3 := by cases op <;> decide
  cases req with
  | jump target => exact hjump target rfl
  | advance => constructor <;> simp only [nextIp] <;> omega
  | halt => constructor <;> simp only [nextIp] <;> omega

/-! ### Each part of the invariant is kept -/

theorem step_keeps_tape {s t : State} (h : step s = .next t) (htape : s.tape.wf = true ∧ s.tapeInLen = true) :
    t.tape.wf = true ∧ t.tapeInLen = true := by
  obtain ⟨-, ⟨c, rfl⟩ | ⟨-, i, e, -, he, rfl⟩⟩ := step_raises_or_commits h
  · exact htape
  cases hw : e.write with
  | none => simpa [State.tapeInLen, State.written_of_none s hw] using htape
  | some w =>
    obtain ⟨a, v⟩ := w
    obtain ⟨hwf, hlen⟩ := htape
    have ha := State.effectOf_write_inBounds he hw
    have hlt : a.toNat < s.config.len := by omega
    rw [State.written_of_some s hw]
    exact ⟨Memory.set_wf _ v hwf, Memory.set_keys_lt v hlen hlt⟩

theorem State.raise_recordAgrees (s : State) (c : Cause) : (s.raise c).recordAgrees := ⟨rfl, c.record_wf s.ip⟩

/-- A Running state has no record. -/
theorem State.recordAgrees_running {s : State} (hs : s.status = .running) : s.recordAgrees ↔ s.fault = none := by
  cases hf : s.fault <;> simp [State.recordAgrees, hs, hf]

theorem step_keeps_recordAgrees {s t : State} (h : step s = .next t) (hrec : s.recordAgrees) : t.recordAgrees := by
  obtain ⟨hs, ⟨c, rfl⟩ | ⟨-, i, e, -, -, rfl⟩⟩ := step_raises_or_commits h
  · exact s.raise_recordAgrees c
  · have hfault := (State.recordAgrees_running hs).mp hrec
    cases hreq : e.req <;> simp [State.recordAgrees, hs, hfault, hreq, nextStatus]

/-- The cells after an effect that fits. -/
theorem State.written_cells_inRange {s : State} {e : Effect} (hwf : s.tape.wf = true)
    (hcells : ∀ a : Nat, InRange s.config.width (s.tape.get a)) (he : e.Fits s.config.width) (a : Nat) :
    InRange s.config.width ((s.written e).tape.get a) := by
  cases hw : e.write with
  | none =>
    rw [State.written_of_none s hw]
    exact hcells a
  | some w =>
    rw [State.written_of_some s hw]
    exact Memory.forall_get_set _ hwf hcells (he.write _ _ hw) a

/-- A block below its ceiling can count one more instruction (spec/40_operands_and_sequencer.md R65). -/
theorem State.steps_lt_of_below {s : State} {c : Nat} (h : s.ceilingReached = false)
    (hc : s.config.ceiling = some c) : s.steps < c := by
  simpa [State.ceilingReached, hc] using h

/-- Restricted mode has no OUT (spec/44_restricted_mode.md R84). -/
theorem State.effectOf_out_restricted {s : State} {i : Instr} {e : Effect} (hi : s.InstrAtIp i)
    (he : s.effectOf i = .ok e) (hmode : s.config.mode = .restricted) : e.out = none := by
  refine (State.effectOf_other he).1 fun hop => ?_
  have hrun : Op.output.runMode = .restricted := by rw [← hop, ← hmode, hi.1]
  cases hrun

/-- A commit that ends the run leaves the state the HALT word was fetched from, `ip` included (R71). -/
theorem State.commit_halted {s : State} {i : Instr} {e : Effect} (hs : s.status = .running) (hi : s.InstrAtIp i)
    (he : s.effectOf i = .ok e) (hhalted : nextStatus s.status e.req = .halted) :
    s.written e = s ∧ nextIp s.ip i.op.count e.req = s.ip ∧ s.InBounds s.ip ∧
      ∃ d, decodeWord s.config.mode (s.cell s.ip) = .ok d ∧ d.op.number = 99 := by
  have hreq : e.req = .halt := by
    cases hr : e.req <;> simp [hr, hs, nextStatus] at hhalted ⊢
  obtain ⟨hw, hnum⟩ := State.effectOf_req_halt he hreq
  obtain ⟨hip, d, hd, hop⟩ := hi.word
  exact ⟨State.written_of_none s hw, by rw [hreq]; rfl, hip, d, hd, hop ▸ hnum⟩

/-- The commit of the instruction at `ip` keeps the values in range, clause by clause of `ValuesOk`. -/
theorem State.commit_valuesOk {s : State} {i : Instr} {e : Effect} (hc : s.config.wf = true) (hwf : s.tape.wf = true)
    (hv : s.ValuesOk) (hs : s.status = .running) (hbelow : s.ceilingReached = false) (hi : s.InstrAtIp i)
    (he : s.effectOf i = .ok e) : ((s.written e).commitRegisters i.op.count e).ValuesOk := by
  have hfits := State.effectOf_fits hc hv hi he
  constructor
  case cells => simpa using State.written_cells_inRange hwf hv.cells hfits
  case ip => simpa using State.nextIp_inRange hc hi.word.1 hfits.jump
  case io => simpa using ⟨hv.io.1, hfits.outValue hv.io.2⟩
  case noOutput =>
    intro hvalid
    obtain ⟨hvalid, hnone⟩ : s.outValid = false ∧ e.out = none := by simpa using hvalid
    simpa [hnone] using hv.noOutput hvalid
  case restrictedIo =>
    intro hmode
    have hmode : s.config.mode = .restricted := by simpa using hmode
    obtain ⟨hin, hvalue, hout⟩ := hv.restrictedIo hmode
    simp [hin, hvalue, hout, State.effectOf_out_restricted hi he hmode]
  case steps =>
    intro c hceil
    have hlt := State.steps_lt_of_below hbelow (by simpa using hceil)
    simpa using hlt
  case halted =>
    intro hhalted
    obtain ⟨hsame, hip, hword⟩ := State.commit_halted hs hi he (by simpa using hhalted)
    rw [hsame, State.commitRegisters_ip, hip]
    exact hword

theorem step_keeps_valuesOk {s t : State} (hs : s.Inv) (h : step s = .next t) (ht : t.status.isFaulted = false) :
    t.ValuesOk := by
  obtain ⟨hrun, ⟨c, rfl⟩ | ⟨hbelow, i, e, hi, he, rfl⟩⟩ := step_raises_or_commits h
  · cases ht
  · exact State.commit_valuesOk hs.config hs.tape.1 (hs.values (by rw [hrun]; rfl)) hrun hbelow hi he

theorem step_keeps_inv {s t : State} (hs : s.Inv) (h : step s = .next t) : t.Inv where
  config := by
    rw [step_config h]
    exact hs.config
  tape := step_keeps_tape h hs.tape
  record := step_keeps_recordAgrees h hs.record
  values := step_keeps_valuesOk hs h

theorem State.Reaches.inv {s t : State} (h : s.Reaches t) (hs : s.Inv) : t.Inv := by
  induction h with
  | refl => exact hs
  | tail _ hstep ih => exact step_keeps_inv ih hstep

/-! ### The launch -/

/-- The launch preconditions, taken apart (R6, R7, R10, spec/10_state.md R19). -/
theorem Launch.wf_iff {l : Launch} : l.wf = true ↔
    l.config.wf = true ∧ (∀ v ∈ l.program, InRange l.width v) ∧ l.mode.inputInRange l.width = true := by
  simp only [Launch.wf, Bool.and_eq_true, List.all_eq_true, decide_eq_true_eq, and_assoc]

theorem resetInValue_inRange {W : Nat} {m : LaunchMode} (h : m.inputInRange W = true) : InRange W (resetInValue m) := by
  cases m with
  | restricted => exact inRange_zero W
  | full input => exact of_decide_eq_true h

/-- The cells of a program in range, and the zero cells past it. -/
theorem Memory.ofCells_inRange {W : Nat} {cells : List Int} (h : ∀ v ∈ cells, InRange W v) (a : Nat) :
    InRange W ((Memory.ofCells 0 cells).get a) := by
  have hget := Memory.get_ofCells 0 a cells
  rw [Nat.zero_add] at hget
  rw [hget]
  cases hcell : cells[a]? with
  | none => exact inRange_zero W
  | some v => exact h v (List.mem_of_getElem? hcell)

theorem State.launch_valuesOk {l : Launch} (h : l.wf = true) : (State.launch l).ValuesOk where
  cells := Memory.ofCells_inRange (Launch.wf_iff.mp h).2.1
  ip := inRange_zero _
  io := ⟨resetInValue_inRange (Launch.wf_iff.mp h).2.2, inRange_zero _⟩
  noOutput _ := rfl
  restrictedIo hmode := by
    cases hm : l.mode with
    | restricted => simp [hm, resetInValid, resetInValue]
    | full input => simp [hm, Launch.config, LaunchMode.runMode] at hmode
  steps _ _ := Nat.zero_le _
  halted := nofun

theorem State.launch_inv {l : Launch} (h : l.wf = true) : (State.launch l).Inv where
  config := (Launch.wf_iff.mp h).1
  tape := ⟨Memory.ofCells_wf _, by
    have hkeys := Memory.ofCells_keys_lt 0 l.program
    rwa [Nat.zero_add] at hkeys⟩
  record := trivial
  values _ := State.launch_valuesOk h

/-! ### The memory primitives (R13) -/

/-- A read gives the value just written at its address. -/
theorem State.setCell_memRead_same {s : State} {a : Int} (v : Int) (hw : s.tape.wf = true) (ha : s.InBounds a) :
    (s.setCell a v).memRead a = .ok v :=
  State.memRead_eq_ok.mpr ⟨ha, Memory.get_set_same _ v hw⟩

/-- A write leaves every read of another address as it was, a failing one included. -/
theorem State.setCell_memRead_other {s : State} {a b : Int} (v : Int) (ha : s.InBounds a) (hab : b ≠ a) :
    (s.setCell a v).memRead b = s.memRead b := by
  by_cases hb : s.InBounds b
  · have hne : b.toNat ≠ a.toNat := by omega
    rw [State.memRead_inBounds hb]
    exact State.memRead_eq_ok.mpr ⟨hb, Memory.get_set_other _ v hne⟩
  · rw [State.memRead_outside hb]
    exact State.memRead_outside hb

/-! ### The obligations of the family -/

/-- Settles O40: each of the four parts of the invariant is kept by every step. -/
theorem everyStepKeepsTheInvariant : Obligations.EveryStepKeepsTheInvariant := by
  unfold Obligations.EveryStepKeepsTheInvariant
  intro s t hs h
  exact step_keeps_inv hs h

/-- Settles O15: a step that ends Faulted raised a cause, and a cause's record is well-formed. -/
theorem faultEntryWritesTheRecord : Obligations.FaultEntryWritesTheRecord := by
  unfold Obligations.FaultEntryWritesTheRecord
  intro s t k h ht
  obtain ⟨-, c, rfl⟩ := step_faulted h (by rw [ht]; rfl)
  obtain rfl : c.kind = k := by simpa using ht
  exact ⟨c.info, ⟨rfl, rfl⟩, c.record_wf s.ip⟩

/-- Settles O18, by induction on the steps taken. -/
theorem configurationIsConstant : Obligations.ConfigurationIsConstant := by
  unfold Obligations.ConfigurationIsConstant
  intro s t h
  exact h.config_eq

/-- Settles O39: the write is `setCell`, whose reads and canonical form have their own lemmas. -/
theorem readGivesLatestWrite : Obligations.ReadGivesLatestWrite := by
  unfold Obligations.ReadGivesLatestWrite
  intro s a v hw ha
  exact ⟨s.setCell a v, State.memWrite_inBounds ha, Memory.set_wf _ v hw, State.setCell_memRead_same v hw ha,
    fun b hb => State.setCell_memRead_other v ha hb⟩

/-- Settles O42: the launch preconditions give each part of the invariant. -/
theorem everyLaunchMeetsTheInvariant : Obligations.EveryLaunchMeetsTheInvariant := by
  unfold Obligations.EveryLaunchMeetsTheInvariant
  intro l h
  exact State.launch_inv h

/-- Settles O46: the invariant holds of every state reached, and its values clause of those that are not Faulted. -/
theorem safeRunKeepsValuesInRange : Obligations.SafeRunKeepsValuesInRange := by
  unfold Obligations.SafeRunKeepsValuesInRange
  intro s t hs hsafe hreach
  exact (hreach.inv hs).values (hsafe t hreach)

end Sys2Proof.Machine

/-! ## Proofs of the family 10_state: the run status and the input and output registers -/

namespace Sys2Proof.Machine

/-- The only legal word of an operation numbered 99 is 99 itself: HALT has no operand, so no mode digit is set
(spec/30_encoding.md R54, R55). -/
theorem decodeWord_halt {m : RunMode} {w : Int} {d : Decoded} (h : decodeWord m w = .ok d)
    (hnum : d.op.number = 99) : w = 99 := by
  obtain ⟨rfl, -, hlegal⟩ := decodeWord_eq_ok h
  obtain ⟨op, m₁, m₂⟩ := d
  cases op
  case halt | haltRestricted =>
    obtain ⟨rfl, rfl⟩ : m₁ = .position ∧ m₂ = .position := by simpa [Op.modesLegal] using hlegal
    rfl
  all_goals cases hnum

/-- NoOutput and ParseError are reported outside a step: no cause has their kind (spec/60_exceptions.md R88). -/
theorem Cause.kind_raised (c : Cause) : c.kind ≠ .noOutput ∧ c.kind ≠ .parseError := by
  cases c <;> exact ⟨nofun, nofun⟩

/-- A request keeps the status or ends the run (spec/40_operands_and_sequencer.md R60). -/
theorem nextStatus_cases (status : RunStatus) (req : IpReq) :
    nextStatus status req = status ∨ nextStatus status req = .halted := by
  cases req with
  | advance => exact .inl rfl
  | jump target => exact .inl rfl
  | halt => exact .inr rfl

/-- A step that does not end Faulted commits the whole effect of the instruction at `ip`. -/
theorem step_commits {s t : State} (h : step s = .next t) (ht : t.status.isFaulted = false) :
    ∃ i e, s.InstrAtIp i ∧ s.effectOf i = .ok e ∧ t = (s.written e).commitRegisters i.op.count e := by
  obtain ⟨-, ⟨c, rfl⟩ | ⟨-, i, e, hi, he, rfl⟩⟩ := step_raises_or_commits h
  · cases ht
  · exact ⟨i, e, hi, he, rfl⟩

/-- Settles O16: a raise takes a kind that steps raise, and a commit keeps the status unless the word at `ip` is that of
HALT. -/
theorem runStatusTransitions : Obligations.RunStatusTransitions := by
  unfold Obligations.RunStatusTransitions
  intro s t h
  obtain ⟨hs, ⟨c, rfl⟩ | ⟨-, i, e, hi, he, rfl⟩⟩ := step_raises_or_commits h
  · exact ⟨hs, .inr (.inr ⟨c.kind, rfl, c.kind_raised⟩)⟩
  · refine ⟨hs, ?_⟩
    rw [State.commitRegisters_status, State.written_status, State.commitRegisters_ip, State.written_ip]
    obtain hsame | hhalted := nextStatus_cases s.status e.req
    · exact .inl (hsame.trans hs)
    · obtain ⟨-, hip, hb, d, hd, hnum⟩ := State.commit_halted hs hi he hhalted
      exact .inr (.inl ⟨hhalted, hb, decodeWord_halt hd hnum, hip⟩)

/-- Settles O19: the commit can only clear `in_valid` and set `out_valid`, and it changes `out_value` by an output, which
sets `out_valid`. -/
theorem ioRegistersMoveOneWay : Obligations.IoRegistersMoveOneWay := by
  unfold Obligations.IoRegistersMoveOneWay
  intro s t h ht
  obtain ⟨i, e, -, -, rfl⟩ := step_commits h ht
  refine ⟨fun hin => ?_, fun hout => ?_, ?_, fun hne => ?_⟩
  · obtain ⟨hin, -⟩ : s.inValid = true ∧ e.consume = false := by simpa using hin
    exact hin
  · simp [hout]
  · simp
  · cases hout : e.out with
    | none => exact absurd (by simp [hout]) hne
    | some v => simp [hout]

end Sys2Proof.Machine

/-! ## Proofs of the family 20_memory: a word written where the next step fetches is the word that step runs -/

namespace Sys2Proof.Machine

/-- The step of a Ready block runs the instruction whose encoding stands at `ip` (spec/40_operands_and_sequencer.md
R60). -/
theorem step_of_instrAtIp {s : State} {i : Instr} (hs : s.Ready) (hi : s.InstrAtIp i) : step s = exec i s :=
  step_of_fetch_ok hs.1 (State.fetchInstr_of_instrAtIp hs.below hi)

/-- ADD on operands that resolve, with a sum in range, commits the write of the sum (spec/41_arith_compare.md R73). -/
theorem exec_add_resolved {s : State} {a b : Operand} {dst x y : Int} (ha : s.Denotes a x) (hb : s.Denotes b y)
    (hd : s.InBounds dst) (hr : InRange s.config.width (x + y)) :
    exec (.add a b dst) s = .next ((s.setCell dst (x + y)).commitRegisters Op.add.count
      { write := some (dst, x + y), out := none, consume := false, req := .advance }) := by
  have hsum : addResult s.config.width x y = .ok (x + y) := checkedResult_eq_ok.mpr ⟨hr, rfl⟩
  rw [exec_eq_finish, State.effectOf, State.binaryEffect_resolved ha hb hd, hsum]
  exact State.finish_write _ rfl hd

/-- Committing the registers changes no read. -/
@[simp] theorem State.commitRegisters_memRead (s : State) (n : Nat) (e : Effect) (a : Int) :
    (s.commitRegisters n e).memRead a = s.memRead a := rfl

/-- The cells at `ip` are the word read there and the operand cells read after it. -/
theorem State.cellsAtIp_cons {s : State} {w : Int} {cells : List Int} (hw : s.memRead s.ip = .ok w)
    (hcells : ∀ (k : Nat) (v : Int), cells[k]? = some v → s.memRead (s.ip + 1 + (k : Int)) = .ok v) :
    s.CellsAtIp (w :: cells) := by
  intro k v hk
  rw [← State.memRead_eq_ok]
  cases k with
  | zero =>
    obtain rfl : w = v := by simpa using hk
    simpa using hw
  | succ k =>
    have h := hcells k v (by simpa using hk)
    rwa [show s.ip + 1 + (k : Int) = s.ip + ((k + 1 : Nat) : Int) by omega] at h

/-- When a commit writes the word of `j` at the cell `ip` goes to, and `j`'s operand cells follow there, `j` stands at
the new `ip`: the fetch reads the live tape (spec/20_memory.md R39). -/
theorem State.instrAtIp_of_word_written {s : State} {n : Nat} {e : Effect} {j : Instr} {a w : Int} {cells : List Int}
    (hwf : s.tape.wf = true) (hmode : j.op.runMode = s.config.mode) (henc : encode j = w :: cells)
    (hip : nextIp s.ip n e.req = a) (ha : s.InBounds a)
    (hcells : ∀ (k : Nat) (v : Int), cells[k]? = some v → s.memRead (a + 1 + (k : Int)) = .ok v) :
    ((s.setCell a w).commitRegisters n e).InstrAtIp j := by
  refine ⟨hmode, ?_⟩
  rw [henc]
  apply State.cellsAtIp_cons
  · simpa [hip] using State.setCell_memRead_same w hwf ha
  · intro k v hk
    have hne : a + 1 + (k : Int) ≠ a := by omega
    simpa [hip, State.setCell_memRead_other w ha hne] using hcells k v hk

/-- Settles O38: the ADD commits its sum at the cell `ip` advances to, so the state it leaves is Ready with `j` at
`ip`. -/
theorem wordWrittenByAddRunsNext : Obligations.WordWrittenByAddRunsNext := by
  unfold Obligations.WordWrittenByAddRunsNext
  intro s a b x y j cells hs hceil hwf hadd ha hb hdst hrange hfull henc hcells
  have hip : nextIp s.ip Op.add.count .advance = s.ip + 4 := add_assoc s.ip 3 1
  refine ⟨_, (step_of_instrAtIp hs hadd).trans (exec_add_resolved ha hb hdst hrange), hip, ?_⟩
  apply step_of_instrAtIp
  · exact ⟨hs.1, hceil⟩
  · have hmode : j.op.runMode = s.config.mode := hfull.trans hadd.1
    refine State.instrAtIp_of_word_written hwf hmode henc hip hdst fun k v hk => ?_
    rw [add_assoc s.ip 4 1]
    exact State.memRead_eq_ok.mpr (hcells k v hk)

end Sys2Proof.Machine

/-! ## Proofs of the family 30_encoding: the decoder and the encoder, and the step of the instruction at `ip` -/

/-! ### The two directions of the round trip -/

namespace Sys2Proof

/-- What a list of cells that decodes is: the encoding of the instruction it decodes to, whole, and the cells left over
(spec/30_encoding.md R43). -/
theorem decode_eq_ok {m : RunMode} {cells rest : List Int} {i : Instr} (h : decode m cells = .ok (i, rest)) :
    cells = encode i ++ rest ∧ i.op.runMode = m := by
  cases cells with
  | nil => cases h
  | cons w tail =>
    rw [decode] at h
    split at h
    · cases h
    rename_i d hd
    split at h
    · cases h
    rename_i j hbuild
    cases h
    obtain ⟨hword, hmode, hlegal⟩ := decodeWord_eq_ok hd
    obtain ⟨hop, operands, henc, hlen, hget⟩ := Decoded.build_eq_ok hlegal hbuild
    have hprefix : operands <+: tail := List.prefix_iff_getElem?.mpr fun k hk =>
      operandCell_eq_ok (hget k _ (List.getElem?_eq_getElem hk))
    obtain ⟨tail', rfl⟩ := hprefix
    rw [henc, hword, ← hlen, List.drop_left]
    exact ⟨rfl, by rw [hop, hmode]⟩

/-! ### The checks of the full-mode decoder -/

/-- Every written operand comes after the read ones (spec/30_encoding.md R45). -/
theorem Op.write_not_mem_dropLast_kinds (op : Op) : OperandKind.write ∉ op.kinds.dropLast := by
  cases op <;> decide

/-- A mode digit of 2 or more fails the loop, whatever the digit of the destination, which is checked last (R52). -/
theorem checkModes_badMode {w : Nat} {kinds : List OperandKind} {k : Nat} (hlast : .write ∉ kinds.dropLast)
    (h : ∃ j kind, kinds[j]? = some kind ∧ 2 ≤ digit (j + k + 1) w) : checkModes w k kinds = .error .badMode := by
  induction kinds generalizing k with
  | nil => simp at h
  | cons first rest ih =>
    rw [checkModes]
    by_cases hbad : 2 ≤ digit (k + 1) w
    · rw [if_pos hbad]
    obtain ⟨j, kind, hj, hdigit⟩ := h
    cases j with
    | zero => rw [Nat.zero_add] at hdigit; exact absurd hdigit hbad
    | succ j =>
      have hrest : rest ≠ [] := by rintro rfl; simp at hj
      simp only [List.dropLast_cons_of_ne_nil hrest, List.mem_cons, not_or] at hlast
      rw [if_neg hbad, if_neg fun hw => hlast.1 hw.1.symm]
      rw [Nat.add_right_comm j 1 k] at hdigit
      exact ih hlast.2 ⟨j, kind, hj, hdigit⟩

/-- When no mode digit is 2 or more, a destination whose digit is 1 fails the loop (R52). -/
theorem checkModes_immediateDestination {w : Nat} {kinds : List OperandKind} {k : Nat}
    (hsmall : ∀ j kind, kinds[j]? = some kind → digit (j + k + 1) w < 2)
    (h : ∃ j, kinds[j]? = some .write ∧ digit (j + k + 1) w = 1) :
    checkModes w k kinds = .error .immediateDestination := by
  induction kinds generalizing k with
  | nil => simp at h
  | cons first rest ih =>
    have hfirst : digit (k + 1) w < 2 := by simpa using hsmall 0 first rfl
    rw [checkModes, if_neg (Nat.not_le.mpr hfirst)]
    by_cases hdest : first = .write ∧ digit (k + 1) w = 1
    · rw [if_pos hdest]
    obtain ⟨j, hj, hdigit⟩ := h
    cases j with
    | zero => exact absurd ⟨by simpa using hj, by simpa using hdigit⟩ hdest
    | succ j =>
      rw [if_neg hdest]
      rw [Nat.add_right_comm j 1 k] at hdigit
      exact ih (fun j kind hj => Nat.add_right_comm j 1 k ▸ hsmall (j + 1) kind hj) ⟨j, hj, hdigit⟩

/-- The loop passes when no mode digit is 2 or more and every destination's is 0 (R52). -/
theorem checkModes_ok {w : Nat} {kinds : List OperandKind} {k : Nat}
    (hsmall : ∀ j kind, kinds[j]? = some kind → digit (j + k + 1) w < 2)
    (hdest : ∀ j, kinds[j]? = some .write → digit (j + k + 1) w = 0) : checkModes w k kinds = .ok () := by
  induction kinds generalizing k with
  | nil => rfl
  | cons first rest ih =>
    have hfirst : digit (k + 1) w < 2 := by simpa using hsmall 0 first rfl
    have hnotDest : ¬ (first = .write ∧ digit (k + 1) w = 1) := by
      rintro ⟨rfl, hone⟩
      have hzero : digit (k + 1) w = 0 := by simpa using hdest 0 rfl
      omega
    rw [checkModes, if_neg (Nat.not_le.mpr hfirst), if_neg hnotDest]
    exact ih (fun j kind hj => Nat.add_right_comm j 1 k ▸ hsmall (j + 1) kind hj)
      fun j hj => Nat.add_right_comm j 1 k ▸ hdest (j + 1) hj

theorem decodeFull_negative {w : Int} (h : w < 0) : decodeFull w = .error .negativeWord := if_pos h

/-- An opcode that is no full-mode operation's is unknown (R51). -/
theorem decodeFull_unknown {w : Int} (hw : 0 ≤ w) (h : ∀ op : Op, op.runMode = .full → w.toNat % 100 ≠ op.number) :
    decodeFull w = .error .unknownOpcode := by
  have hnone : fullOp (w.toNat % 100) = none := by
    cases hop : fullOp (w.toNat % 100) with
    | none => rfl
    | some op =>
      obtain ⟨hnum, hfull⟩ := fullOp_eq_some hop
      exact absurd hnum (h op hfull)
  rw [decodeFull, if_neg (Int.not_lt.mpr hw), hnone]

/-- The checks of a word whose opcode is an operation's: its mode digits, then the digits beyond its operands (R54). -/
theorem decodeFull_known {w : Int} {op : Op} (hw : 0 ≤ w) (hfull : op.runMode = .full)
    (hnum : w.toNat % 100 = op.number) :
    decodeFull w = (checkModes w.toNat 1 op.kinds).bind fun _ =>
      if w.toNat / 10 ^ (op.count + 2) ≠ 0 then .error .excessDigits
      else .ok { op := op, m₁ := modeOfDigit (digit 2 w.toNat), m₂ := modeOfDigit (digit 3 w.toNat) } := by
  rw [decodeFull, if_neg (Int.not_lt.mpr hw), hnum, fullOp_number hfull]
  dsimp only
  cases checkModes w.toNat 1 op.kinds <;> rfl

theorem modeOfDigit_eq_ite {k : Nat} (h : k < 2) :
    modeOfDigit k = if k = 1 then .immediate else .position := by
  match k, h with
  | 0, _ => rfl
  | 1, _ => rfl

/-! ### The legal words -/

/-- The opcode numbers of the spec's table (R45). -/
theorem Op.number_range (op : Op) : (1 ≤ op.number ∧ op.number ≤ 8) ∨ op.number = 99 := by
  cases op <;> decide

/-- The words R54 lists. -/
def legalFullWords : List Int :=
  [1, 101, 1001, 1101, 2, 102, 1002, 1102, 3, 4, 104, 5, 105, 1005, 1105, 6, 106, 1006, 1106,
    7, 107, 1007, 1107, 8, 108, 1008, 1108, 99]

/-- The encoder writes no other word in full mode. -/
theorem encodeWord_mem_legalFullWords {op : Op} {m₁ m₂ : AddrMode} (hfull : op.runMode = .full)
    (hlegal : op.modesLegal m₁ m₂ = true) : encodeWord op m₁ m₂ ∈ legalFullWords := by
  revert hfull hlegal
  cases op <;> cases m₁ <;> cases m₂ <;> decide

theorem decodeWord_isOk_of_mem_legalFullWords : ∀ w ∈ legalFullWords, (decodeWord .full w).isOk = true := by decide

theorem decodeRestricted_unknown {w : Int} (h1 : w ≠ 1) (h2 : w ≠ 2) (h99 : w ≠ 99) :
    decodeRestricted w = .error .unknownOpcode := by
  rw [decodeRestricted, if_neg h1, if_neg h2, if_neg h99]

end Sys2Proof

/-! ### The step of the cells at `ip` -/

namespace Sys2Proof.Machine

/-- A block that fetches an illegal word faults with the decoder's reason and the word (spec/60_exceptions.md R89). -/
theorem step_of_illegal_word {s : State} {m : RunMode} {w : Int} {r : IllegalReason} (h : decodeWord m w = .error r)
    (hs : s.Ready) (hmode : s.config.mode = m) (hb : s.InBounds s.ip) (hcell : s.cell s.ip = w) :
    ∃ t, step s = .next t ∧ t.FaultedWith .illegalOpcode s.ip (.word r w) := by
  have hfetch : s.fetchInstr = .error (.illegalOpcode r w) := by
    simp [State.fetchInstr, hs.below, State.memRead_inBounds hb, hcell, hmode, h]
  exact ⟨_, step_of_fetch_error hs.1 hfetch, rfl, rfl⟩

/-- Cells that stand at `ip` stand there also without those that follow them. -/
theorem State.CellsAtIp.of_append {s : State} {cells rest : List Int} (h : s.CellsAtIp (cells ++ rest)) :
    s.CellsAtIp cells := by
  intro k v hk
  apply h k v
  rw [List.getElem?_append_left (List.getElem?_eq_some_iff.mp hk).1, hk]

/-- An instruction whose effect does not fail commits it, its write included. -/
theorem exec_of_effectOf_ok {s : State} {i : Instr} {e : Effect} (h : s.effectOf i = .ok e) :
    exec i s = .next ((s.written e).commitRegisters i.op.count e) := by
  rw [exec_eq_finish, h]
  cases hw : e.write with
  | none => rw [State.finish_noWrite s _ hw, State.written_of_none s hw]
  | some write =>
    obtain ⟨a, v⟩ := write
    rw [State.finish_write _ hw (State.effectOf_write_inBounds h hw), State.written_of_some s hw]

end Sys2Proof.Machine

/-! ### Restricted mode inside full mode -/

namespace Sys2Proof

/-- The full-mode instruction of the same cells (spec/44_restricted_mode.md R85 to R87): every operand an address. -/
def Instr.fullForm : Instr → Instr
  | .addRestricted p₁ p₂ dst => .add (.position p₁) (.position p₂) dst
  | .mulRestricted p₁ p₂ dst => .mul (.position p₁) (.position p₂) dst
  | .haltRestricted => .halt
  | i => i

theorem Instr.encode_fullForm (i : Instr) : encode i.fullForm = encode i := by cases i <;> rfl
theorem Instr.runMode_fullForm (i : Instr) : i.fullForm.op.runMode = .full := by cases i <;> rfl
theorem Instr.count_fullForm (i : Instr) : i.fullForm.op.count = i.op.count := by cases i <;> rfl

end Sys2Proof

namespace Sys2Proof.Machine

/-- The same state with MODE full. -/
def State.inFullMode (s : State) : State := { s with config := { s.config with mode := .full } }

/-- The instruction at `ip` of any state is, as the full-mode instruction of its cells, at `ip` of the state in full
mode. -/
theorem State.InstrAtIp.inFullMode {s : State} {i : Instr} (h : s.InstrAtIp i) : s.inFullMode.InstrAtIp i.fullForm := by
  refine ⟨i.runMode_fullForm, ?_⟩
  rw [i.encode_fullForm]
  exact h.2

/-- MODE takes no part in an effect. -/
theorem State.inFullMode_effectOf (s : State) (i : Instr) : s.inFullMode.effectOf i.fullForm = s.effectOf i := by
  cases i <;> rfl

/-- MODE takes no part in a commit. -/
theorem State.inFullMode_commit (s : State) (n : Nat) (e : Effect) :
    (s.inFullMode.written e).commitRegisters n e = ((s.written e).commitRegisters n e).inFullMode := by
  unfold State.written
  split <;> rfl

/-! ### The obligations of the family -/

/-- Settles O1: the run mode of a well-formed instruction is its operation's, whose decoder reads the encoding back. -/
theorem decodeGivesBackEncodedInstruction : Obligations.DecodeGivesBackEncodedInstruction := by
  unfold Obligations.DecodeGivesBackEncodedInstruction
  intro W m i rest h
  rw [← Laws.RoundTrip.runMode_of_wellFormed h]
  exact decode_encode_append i rest

/-- Settles O2: the word read is the encoding of the operation and modes it decodes to, and the operand cells read are the
first cells after it. -/
theorem decodedCellsAreTheEncoding : Obligations.DecodedCellsAreTheEncoding := by
  unfold Obligations.DecodedCellsAreTheEncoding
  intro m cells rest i h
  exact decode_eq_ok h

/-- Settles O3: one lemma for each outcome of the loop over the mode digits. -/
theorem fullDecoderReportsFirstFailingCheck : Obligations.FullDecoderReportsFirstFailingCheck := by
  unfold Obligations.FullDecoderReportsFirstFailingCheck
  intro w
  refine ⟨decodeFull_negative, decodeFull_unknown, fun op hfull hw hnum => ?_⟩
  rw [decodeWord, decodeFull_known hw hfull hnum]
  refine ⟨fun hbad => ?_, fun hsmall => ⟨fun hdest => ?_, fun hdest => ?_⟩⟩
  · rw [checkModes_badMode op.write_not_mem_dropLast_kinds hbad]
    rfl
  · rw [checkModes_immediateDestination hsmall hdest]
    rfl
  · have hmodes : checkModes w.toNat 1 op.kinds = .ok () := checkModes_ok hsmall hdest
    rw [hmodes]
    refine ⟨fun hexcess => if_pos hexcess, fun hnone => ?_⟩
    obtain ⟨-, h2, h3, -⟩ := digits_of_checked hfull hmodes hnone
    rw [← modeOfDigit_eq_ite h2, ← modeOfDigit_eq_ite h3]
    exact if_neg (not_not.mpr hnone)

/-- Settles O4: a legal word is the encoding of legal modes, and each listed word decodes. -/
theorem legalFullModeWordsAreTwentyEight : Obligations.LegalFullModeWordsAreTwentyEight := by
  unfold Obligations.LegalFullModeWordsAreTwentyEight
  intro w
  constructor
  · rintro ⟨d, hd⟩
    obtain ⟨rfl, hfull, hlegal⟩ := decodeWord_eq_ok hd
    exact encodeWord_mem_legalFullWords hfull hlegal
  · intro hw
    have hok := decodeWord_isOk_of_mem_legalFullWords w hw
    cases hd : decodeWord .full w with
    | ok d => exact ⟨d, rfl⟩
    | error r => rw [hd] at hok; cases hok

/-- Settles O5: the decoder has three words, and a Ready block that fetches another one faults. -/
theorem restrictedModeAcceptsOnlyThreeWords : Obligations.RestrictedModeAcceptsOnlyThreeWords := by
  unfold Obligations.RestrictedModeAcceptsOnlyThreeWords
  refine ⟨⟨rfl, rfl, rfl⟩, fun w h1 h2 h99 => ?_⟩
  have hdec : decodeWord .restricted w = .error .unknownOpcode := decodeRestricted_unknown h1 h2 h99
  exact ⟨hdec, fun _ => step_of_illegal_word hdec⟩

/-- Settles O6: the sign is the decoder's first check, and a Ready block that fetches the word faults. -/
theorem negativeWordFaults : Obligations.NegativeWordFaults := by
  unfold Obligations.NegativeWordFaults
  intro w hw
  have hdec : decodeWord .full w = .error .negativeWord := decodeFull_negative hw
  exact ⟨hdec, fun _ => step_of_illegal_word hdec⟩

/-- Settles O7: no operation has such an opcode, and a Ready block that fetches the word faults. -/
theorem unknownOpcodeFaults : Obligations.UnknownOpcodeFaults := by
  unfold Obligations.UnknownOpcodeFaults
  intro w hw hopcode
  have hdec : decodeWord .full w = .error .unknownOpcode := by
    refine decodeFull_unknown hw fun op _ hnum => ?_
    have hrange := op.number_range
    omega
  exact ⟨hdec, fun _ => step_of_illegal_word hdec⟩

/-- Settles O10: the fetch reads the word and operand cells back from the tape. -/
theorem stepRunsEncodedInstruction : Obligations.StepRunsEncodedInstruction := by
  unfold Obligations.StepRunsEncodedInstruction
  intro s i hs hi
  exact step_of_instrAtIp hs hi

/-- Settles O21: the instruction at `ip` has a full-mode form of the same cells, with the same effect and commit. -/
theorem restrictedStepIsAFullModeStep : Obligations.RestrictedStepIsAFullModeStep := by
  unfold Obligations.RestrictedStepIsAFullModeStep
  intro s t _ h ht
  change step s.inFullMode = .next t.inFullMode
  obtain ⟨hrun, ⟨c, rfl⟩ | ⟨hceil, i, e, hi, he, rfl⟩⟩ := step_raises_or_commits h
  · cases ht
  have hfetch : s.inFullMode.fetchInstr = .ok i.fullForm := State.fetchInstr_of_instrAtIp hceil hi.inFullMode
  have heffect : s.inFullMode.effectOf i.fullForm = .ok e := (s.inFullMode_effectOf i).trans he
  calc step s.inFullMode
      = exec i.fullForm s.inFullMode := step_of_fetch_ok hrun hfetch
    _ = .next ((s.inFullMode.written e).commitRegisters i.fullForm.op.count e) := exec_of_effectOf_ok heffect
    _ = .next ((s.written e).commitRegisters i.op.count e).inFullMode := by
      rw [i.count_fullForm, State.inFullMode_commit]

/-- Settles O8: each list is one run of the decoder. -/
theorem someWordsDecodeAsListed : Obligations.SomeWordsDecodeAsListed := by
  unfold Obligations.SomeWordsDecodeAsListed
  decide

/-- Settles O9: the cells that decode begin with the encoding of the instruction, which therefore stands at `ip`. -/
theorem stepRunsDecodedInstruction : Obligations.StepRunsDecodedInstruction := by
  unfold Obligations.StepRunsDecodedInstruction
  intro s cells rest i hs hcells h
  obtain ⟨rfl, hmode⟩ := decode_eq_ok h
  exact step_of_instrAtIp hs ⟨hmode, hcells.of_append⟩

end Sys2Proof.Machine

/-! ## Proofs of the family 40_operands_and_sequencer: what an instruction commits, what a step checks before it, and
how long a run lasts -/

/-! ### What a commit leaves unchanged -/

namespace Sys2Proof.Machine

/-- Only HALT's request changes the status (spec/40_operands_and_sequencer.md R60). -/
theorem nextStatus_of_ne_halt {req : IpReq} (status : RunStatus) (h : req ≠ .halt) :
    nextStatus status req = status := by
  cases req with
  | advance => rfl
  | jump target => rfl
  | halt => exact absurd rfl h

section Commit
variable {s : State} {e : Effect} (n : Nat)

theorem State.commit_writesOnly {a v : Int} (hwf : s.tape.wf = true) (hw : e.write = some (a, v)) :
    s.WritesOnly ((s.written e).commitRegisters n e) a v := by
  rw [State.written_of_some s hw]
  exact State.setCell_writesOnly v hwf

theorem State.commit_sameTape (hw : e.write = none) : s.SameTape ((s.written e).commitRegisters n e) := by
  rw [State.written_of_none s hw]
  exact fun _ => rfl

theorem State.commit_sameIo (hout : e.out = none) (hconsume : e.consume = false) :
    s.SameIo ((s.written e).commitRegisters n e) := by
  simp [State.SameIo, hout, hconsume]

theorem State.commit_sameControl (hreq : e.req ≠ .halt) : s.SameControl ((s.written e).commitRegisters n e) := by
  simp [State.SameControl, nextStatus_of_ne_halt s.status hreq]

end Commit

/-- An effect writes the instruction's destination and no other cell. -/
theorem State.effectOf_destination {s : State} {i : Instr} {e : Effect} {a v : Int} (h : s.effectOf i = .ok e)
    (hw : e.write = some (a, v)) : i.destination = some a := by
  have hdst := State.effectOf_write h
  cases hd : i.destination with
  | none => simp [hd, hw] at hdst
  | some d =>
    obtain ⟨-, r, hr⟩ : s.InBounds d ∧ ∃ r, e.write = some (d, r) := by simpa [hd] using hdst
    rw [hw] at hr
    cases hr
    rfl

theorem State.written_get_of_ne_destination {s : State} {i : Instr} {e : Effect} {a : Nat} (h : s.effectOf i = .ok e)
    (ha : ∀ d, i.destination = some d → a ≠ d.toNat) : (s.written e).tape.get a = s.tape.get a := by
  cases hw : e.write with
  | none => rw [State.written_of_none s hw]
  | some write =>
    obtain ⟨d, v⟩ := write
    rw [State.written_of_some s hw]
    exact Memory.get_set_other _ v (ha d (State.effectOf_destination h hw))

/-! ### The two ends of an execution -/

/-- An instruction that completes commits its effect. -/
theorem exec_commits {i : Instr} {s t : State} (h : exec i s = .next t) (ht : t.status.isFaulted = false) :
    ∃ e, s.effectOf i = .ok e ∧ t = (s.written e).commitRegisters i.op.count e := by
  obtain ⟨e, he, -⟩ := exec_completed h ht
  rw [exec_of_effectOf_ok he] at h
  cases h
  exact ⟨e, he, rfl⟩

/-- An instruction whose effect fails raises the cause (spec/40_operands_and_sequencer.md R62). -/
theorem exec_of_effectOf_error {i : Instr} {s : State} {c : Cause} (h : s.effectOf i = .error c) :
    exec i s = .next (s.raise c) := by
  rw [exec_eq_finish, h, State.finish_error]

theorem State.raise_faultedWith (s : State) (c : Cause) : (s.raise c).FaultedWith c.kind s.ip c.info := ⟨rfl, rfl⟩

/-- Every instruction has a next state, committed or Faulted. -/
theorem exec_next (i : Instr) (s : State) : ∃ t, exec i s = .next t := by
  cases he : s.effectOf i with
  | error c => exact ⟨_, exec_of_effectOf_error he⟩
  | ok e => exact ⟨_, exec_of_effectOf_ok he⟩

/-! ### The instructions that complete -/

/-- The effect of two read operands and a destination that resolve, when the result is a value. -/
theorem State.binaryEffect_of_result {s : State} {result : Int → Int → Except Cause Int} {a b : Operand}
    {dst x y r : Int} (ha : s.Denotes a x) (hb : s.Denotes b y) (hd : s.InBounds dst) (hr : result x y = .ok r) :
    s.binaryEffect result a b dst =
      .ok { write := some (dst, r), out := none, consume := false, req := .advance } := by
  rw [State.binaryEffect_resolved ha hb hd, hr]

/-- An instruction of three operands whose effect is to write `r` to `dst` completes with that write and nothing else
changed but `ip` and `steps` (spec/40_operands_and_sequencer.md R60, R71). -/
theorem exec_write_completes {s : State} {i : Instr} {dst r : Int} (hwf : s.tape.wf = true) (hcount : i.op.count = 3)
    (he : s.effectOf i = .ok { write := some (dst, r), out := none, consume := false, req := .advance }) :
    ∃ t, exec i s = .next t ∧ s.WritesOnly t dst r ∧ t.ip = s.ip + 4 ∧ t.steps = s.steps + 1 ∧ s.SameIo t ∧
      s.SameControl t := by
  refine ⟨_, exec_of_effectOf_ok he, State.commit_writesOnly _ hwf rfl, ?_, by simp, State.commit_sameIo _ rfl rfl,
    State.commit_sameControl _ nofun⟩
  rw [hcount]
  exact add_assoc s.ip 3 1

/-- A branch instruction on operands that resolve goes to its target or on, and changes nothing else but `steps`
(spec/43_control.md R80, R81). -/
theorem exec_branch_completes {s : State} {i : Instr} {taken : Int → Bool} {val target : Operand} {v d : Int}
    (hcount : i.op.count = 2) (hi : s.effectOf i = s.branchEffect taken val target) (hv : s.Denotes val v)
    (hd : s.Denotes target d) :
    ∃ t, exec i s = .next t ∧ t.ip = (if taken v then d else s.ip + 3) ∧ t.steps = s.steps + 1 ∧ s.SameTape t ∧
      s.SameIo t ∧ s.SameControl t := by
  have he := hi.trans (State.branchEffect_resolved hv hd)
  refine ⟨_, exec_of_effectOf_ok he, ?_, by simp, State.commit_sameTape _ rfl, State.commit_sameIo _ rfl rfl,
    State.commit_sameControl _ ?_⟩
  · rw [hcount]
    cases taken v with
    | true => rfl
    | false => exact add_assoc s.ip 2 1
  · cases taken v <;> exact nofun

/-- HALT ends the run Halted and changes nothing else but `steps` (spec/43_control.md R82, spec/44_restricted_mode.md
R87). -/
theorem exec_halt_completes {i : Instr} (hi : i = .halt ∨ i = .haltRestricted) (s : State) :
    ∃ t, exec i s = .next t ∧ t.status = .halted ∧ t.ip = s.ip ∧ t.steps = s.steps + 1 ∧ s.SameTape t ∧ s.SameIo t ∧
      t.config = s.config ∧ t.fault = s.fault := by
  have he : s.effectOf i = .ok { write := none, out := none, consume := false, req := .halt } := by
    obtain rfl | rfl := hi <;> rfl
  exact ⟨_, exec_of_effectOf_ok he, rfl, rfl, rfl, State.commit_sameTape _ rfl, State.commit_sameIo _ rfl rfl, rfl, rfl⟩

/-- Operands that denote the same values have the same effect, whatever their modes (spec/40_operands_and_sequencer.md
R70). -/
theorem State.binaryEffect_congr {s : State} {a b a' b' : Operand} {x y : Int} (ha : s.Denotes a x)
    (ha' : s.Denotes a' x) (hb : s.Denotes b y) (hb' : s.Denotes b' y) (result : Int → Int → Except Cause Int)
    (dst : Int) : s.binaryEffect result a b dst = s.binaryEffect result a' b' dst := by
  simp only [State.binaryEffect, State.resolveRRW, State.readOperand_eq_ok.mpr ha, State.readOperand_eq_ok.mpr ha',
    State.readOperand_eq_ok.mpr hb, State.readOperand_eq_ok.mpr hb']

/-- IN without a pending input fails once its destination is resolved (spec/42_io.md R78). -/
theorem State.inputEffect_exhausted {s : State} {dst : Int} (hd : s.InBounds dst) (hin : s.inValid = false) :
    s.inputEffect dst = .error .inputExhausted := by
  simp [State.inputEffect, State.destination_inBounds hd, hin]

theorem State.inputEffect_resolved {s : State} {dst : Int} (hd : s.InBounds dst) (hin : s.inValid = true) :
    s.inputEffect dst = .ok { write := some (dst, s.inValue), out := none, consume := true, req := .advance } := by
  simp [State.inputEffect, State.destination_inBounds hd, hin]

/-! ### The obligations on instructions -/

/-- Settles O22: the effect of ADD is the write of its sum. -/
theorem addCompletes : Obligations.AddCompletes := by
  unfold Obligations.AddCompletes
  intro s a b dst x y _ hwf ha hb hd hr
  exact exec_write_completes hwf rfl (State.binaryEffect_of_result ha hb hd (checkedResult_eq_ok.mpr ⟨hr, rfl⟩))

/-- Settles O23: the effect of MUL is the write of its product. -/
theorem mulCompletes : Obligations.MulCompletes := by
  unfold Obligations.MulCompletes
  intro s a b dst x y _ hwf ha hb hd hr
  exact exec_write_completes hwf rfl (State.binaryEffect_of_result ha hb hd (checkedResult_eq_ok.mpr ⟨hr, rfl⟩))

/-- Settles O24: the effect of LT is the write of its comparison, which has no range to leave. -/
theorem ltCompletes : Obligations.LtCompletes := by
  unfold Obligations.LtCompletes
  intro s a b dst x y _ hwf ha hb hd
  exact exec_write_completes hwf rfl
    (State.binaryEffect_of_result (result := fun x y => .ok (ltResult x y)) ha hb hd rfl)

/-- Settles O25: the effect of EQ is the write of its comparison, which has no range to leave. -/
theorem eqCompletes : Obligations.EqCompletes := by
  unfold Obligations.EqCompletes
  intro s a b dst x y _ hwf ha hb hd
  exact exec_write_completes hwf rfl
    (State.binaryEffect_of_result (result := fun x y => .ok (eqResult x y)) ha hb hd rfl)

/-- Settles O31: a restricted operand is a position operand, which denotes the cell it addresses. -/
theorem addRestrictedCompletes : Obligations.AddRestrictedCompletes := by
  unfold Obligations.AddRestrictedCompletes
  intro s p₁ p₂ dst _ hwf h₁ h₂ hd hr
  exact exec_write_completes hwf rfl
    (State.binaryEffect_of_result ⟨h₁, rfl⟩ ⟨h₂, rfl⟩ hd (checkedResult_eq_ok.mpr ⟨hr, rfl⟩))

/-- Settles O32: a restricted operand is a position operand, which denotes the cell it addresses. -/
theorem mulRestrictedCompletes : Obligations.MulRestrictedCompletes := by
  unfold Obligations.MulRestrictedCompletes
  intro s p₁ p₂ dst _ hwf h₁ h₂ hd hr
  exact exec_write_completes hwf rfl
    (State.binaryEffect_of_result ⟨h₁, rfl⟩ ⟨h₂, rfl⟩ hd (checkedResult_eq_ok.mpr ⟨hr, rfl⟩))

/-- Settles O26: the effect of IN is the write of `in_value` and the consumption of the input. -/
theorem inCompletes : Obligations.InCompletes := by
  unfold Obligations.InCompletes
  intro s dst _ hwf hd hin
  have he : s.effectOf (.input dst) = _ := State.inputEffect_resolved hd hin
  exact ⟨_, exec_of_effectOf_ok he, State.commit_writesOnly _ hwf rfl, by simp, rfl, rfl, by simp,
    add_assoc s.ip 1 1, rfl, State.commit_sameControl _ nofun⟩

/-- Settles O27: the effect of OUT is the output of its operand's value. -/
theorem outCompletes : Obligations.OutCompletes := by
  unfold Obligations.OutCompletes
  intro s val v _ hval
  have he : s.effectOf (.output val) = _ := State.outputEffect_resolved hval
  exact ⟨_, exec_of_effectOf_ok he, rfl, by simp, State.commit_sameTape _ rfl, by simp, rfl, add_assoc s.ip 1 1, rfl,
    State.commit_sameControl _ nofun⟩

/-- Settles O28: JIT branches when its condition is not 0. -/
theorem jitCompletes : Obligations.JitCompletes := by
  unfold Obligations.JitCompletes
  intro s val target v d _ hv hd
  have hjit := exec_branch_completes (i := .jit val target) (taken := conditionTrue) rfl rfl hv hd
  simpa [conditionTrue] using hjit

/-- Settles O29: JIF branches when its condition is 0. -/
theorem jifCompletes : Obligations.JifCompletes := by
  unfold Obligations.JifCompletes
  intro s val target v d _ hv hd
  have hjif := exec_branch_completes (i := .jif val target) (taken := fun v => !conditionTrue v) rfl rfl hv hd
  simpa [conditionTrue] using hjif

/-- Settles O30: both forms of HALT have the same effect. -/
theorem haltCompletes : Obligations.HaltCompletes := by
  unfold Obligations.HaltCompletes
  intro s i hi _
  exact exec_halt_completes hi s

/-- Settles O34: the destination is resolved before the input is asked for. -/
theorem inWithoutInputFaults : Obligations.InWithoutInputFaults := by
  unfold Obligations.InWithoutInputFaults
  intro s dst hin
  refine ⟨fun hd => ?_, fun hd => ?_⟩
  · have he : s.effectOf (.input dst) = _ := State.inputEffect_exhausted hd hin
    exact ⟨_, exec_of_effectOf_error he, s.raise_faultedWith _⟩
  · have hfirst : s.FirstOutOfBounds (Instr.input dst).checkedAddresses dst :=
      (State.firstOutOfBounds_outside hd [] dst).mpr rfl
    exact ⟨_, exec_of_effectOf_error (State.effectOf_outOfBounds hfirst), s.raise_faultedWith _⟩

/-- Settles O35: the effect fails with the first address outside the tape, and the failure is raised. -/
theorem firstOperandOutOfBoundsIsReported : Obligations.FirstOperandOutOfBoundsIsReported := by
  unfold Obligations.FirstOperandOutOfBoundsIsReported
  intro s i p h
  exact ⟨_, exec_of_effectOf_error (State.effectOf_outOfBounds h), s.raise_faultedWith _⟩

/-- Settles O36: the effect writes the destination only, and outputs, consumes and halts for OUT, IN and HALT only. -/
theorem completedInstructionFrame : Obligations.CompletedInstructionFrame := by
  unfold Obligations.CompletedInstructionFrame
  intro s t i _ h ht
  obtain ⟨e, he, rfl⟩ := exec_commits h ht
  obtain ⟨hout, hconsume, hreq⟩ := State.effectOf_other he
  refine ⟨fun a ha => State.written_get_of_ne_destination he ha, by simp, by simp, by simp, fun hi => ?_, fun ho => ?_,
    fun h1 h2 => ?_⟩
  · simp [hconsume hi]
  · simp [hout ho]
  · simp [nextStatus_of_ne_halt _ (hreq h1 h2)]

/-- Settles O37: the two executions are the same, since the two effects are. -/
theorem effectIndependentOfAddressingModes : Obligations.EffectIndependentOfAddressingModes := by
  unfold Obligations.EffectIndependentOfAddressingModes
  intro s mk a b a' b' dst x y hmk ha ha' hb hb'
  have hsame : exec (mk a' b' dst) s = exec (mk a b dst) s := by
    obtain rfl | rfl | rfl | rfl := hmk <;>
      exact congrArg (s.finish 3) (State.binaryEffect_congr ha' ha hb' hb _ dst)
  obtain ⟨t, ht⟩ := exec_next (mk a b dst) s
  exact ⟨t, t, ht, hsame.trans ht, rfl, rfl, fun _ => rfl⟩

end Sys2Proof.Machine

/-! ### Building an instruction whose operand cells cannot all be had -/

namespace Sys2Proof

section Build
variable {ε : Type} {cell : Nat → Except ε Int} {k : Nat} {e : ε}

theorem build1_eq_error {mk : Int → Instr} (hpos : 1 ≤ k) (hk : k ≤ 1) (he : cell k = .error e) :
    build1 cell mk = .error e := by
  obtain rfl : k = 1 := Nat.le_antisymm hk hpos
  simp [build1, he]

theorem build2_eq_error {mk : Int → Int → Instr} (hpos : 1 ≤ k) (hk : k ≤ 2)
    (hbefore : ∀ j, 1 ≤ j → j < k → ∃ v, cell j = .ok v) (he : cell k = .error e) : build2 cell mk = .error e := by
  obtain rfl | rfl : k = 1 ∨ k = 2 := by omega
  · simp [build2, he]
  · obtain ⟨v, hv⟩ := hbefore 1 (by omega) (by omega)
    simp [build2, hv, he]

theorem build3_eq_error {mk : Int → Int → Int → Instr} (hpos : 1 ≤ k) (hk : k ≤ 3)
    (hbefore : ∀ j, 1 ≤ j → j < k → ∃ v, cell j = .ok v) (he : cell k = .error e) : build3 cell mk = .error e := by
  obtain rfl | rfl | rfl : k = 1 ∨ k = 2 ∨ k = 3 := by omega
  · simp [build3, he]
  · obtain ⟨v, hv⟩ := hbefore 1 (by omega) (by omega)
    simp [build3, hv, he]
  · obtain ⟨v, hv⟩ := hbefore 1 (by omega) (by omega)
    obtain ⟨u, hu⟩ := hbefore 2 (by omega) (by omega)
    simp [build3, hv, hu, he]

/-- The operand cells of an instruction are taken in increasing order, so the first that cannot be had gives the error
(spec/40_operands_and_sequencer.md R67). -/
theorem Decoded.build_eq_error {d : Decoded} (hpos : 1 ≤ k) (hk : k ≤ d.op.count)
    (hbefore : ∀ j, 1 ≤ j → j < k → ∃ v, cell j = .ok v) (he : cell k = .error e) : d.build cell = .error e := by
  obtain ⟨op, m₁, m₂⟩ := d
  cases op
  case input | output => exact build1_eq_error hpos hk he
  case jit | jif => exact build2_eq_error hpos hk hbefore he
  case add | mul | lt | eq | addRestricted | mulRestricted => exact build3_eq_error hpos hk hbefore he
  case halt | haltRestricted => exact absurd (hpos.trans hk) (Nat.not_succ_le_zero 0)

end Build

end Sys2Proof

/-! ### What a step checks before the execution -/

namespace Sys2Proof.Machine

theorem step_of_not_running {s : State} (h : s.status ≠ .running) : step s = .fault .notRunning := by
  cases hs : s.status with
  | running => exact absurd hs h
  | halted => simp [step, hs]
  | faulted kind => simp [step, hs]

/-- A fetch that fails is a step that faults (spec/40_operands_and_sequencer.md R62). -/
theorem step_faultedWith {s : State} {c : Cause} (hs : s.status = .running) (h : s.fetchInstr = .error c) :
    ∃ t, step s = .next t ∧ t.FaultedWith c.kind s.ip c.info :=
  ⟨_, step_of_fetch_error hs h, s.raise_faultedWith c⟩

theorem State.fetchInstr_ceiling {s : State} (h : s.ceilingReached = true) : s.fetchInstr = .error .runawayProgram := by
  simp [State.fetchInstr, h]

theorem State.fetchInstr_outside {s : State} (hbelow : s.ceilingReached = false) (h : ¬ s.InBounds s.ip) :
    s.fetchInstr = .error (.outOfBounds s.ip) := by
  simp [State.fetchInstr, hbelow, State.memRead_outside h]

/-- A legal word is fetched with its operand cells. -/
theorem State.fetchInstr_legal {s : State} {d : Decoded} (hbelow : s.ceilingReached = false) (hip : s.InBounds s.ip)
    (hd : decodeWord s.config.mode (s.cell s.ip) = .ok d) :
    s.fetchInstr = d.build fun k => s.memRead (s.ip + (k : Int)) := by
  simp [State.fetchInstr, hbelow, State.memRead_inBounds hip, hd]

/-- Below the ceiling a fetch that fails raises another kind than RunawayProgram (spec/60_exceptions.md R92). -/
theorem State.fetchInstr_error_ne_runaway {s : State} {c : Cause} (hbelow : s.ceilingReached = false)
    (h : s.fetchInstr = .error c) : c.kind ≠ .runawayProgram := by
  obtain ⟨hceil, -⟩ | ⟨-, ⟨a, -, rfl⟩ | ⟨r, -, -, rfl⟩⟩ := State.fetchInstr_eq_error h
  · rw [hbelow] at hceil
    cases hceil
  · exact nofun
  · exact nofun

/-- No instruction raises RunawayProgram (spec/60_exceptions.md R92). -/
theorem State.effectOf_error_ne_runaway {s : State} {i : Instr} {c : Cause} (h : s.effectOf i = .error c) :
    c.kind ≠ .runawayProgram := by
  obtain ⟨p, -, rfl⟩ | ⟨rfl, -⟩ | ⟨rfl, -⟩ := State.effectOf_eq_error h <;> exact nofun

theorem step_ne_runaway {s t : State} (hs : s.Ready) (h : step s = .next t) : t.status ≠ .faulted .runawayProgram := by
  intro ht
  obtain ⟨hrun, ⟨c, hc, rfl⟩ | ⟨i, -, hx⟩⟩ := step_cases h
  · exact State.fetchInstr_error_ne_runaway hs.below hc (RunStatus.faulted.inj ht)
  · obtain ⟨c, hc, rfl⟩ := exec_faulted (by rw [hrun]; rfl) hx (by rw [ht]; rfl)
    exact State.effectOf_error_ne_runaway hc (RunStatus.faulted.inj ht)

/-! ### How a step counts -/

/-- A step that completes is counted (spec/40_operands_and_sequencer.md R72). -/
theorem step_steps_eq {s t : State} (h : step s = .next t) (ht : t.status.isFaulted = false) :
    t.steps = s.steps + 1 := by
  obtain ⟨i, e, -, -, rfl⟩ := step_commits h ht
  simp

/-- A step that completes began below the ceiling, so it leaves at most CEILING instructions counted
(spec/40_operands_and_sequencer.md R65). -/
theorem step_steps_le {s t : State} {c : Nat} (h : step s = .next t) (ht : t.status.isFaulted = false)
    (hc : s.config.ceiling = some c) : t.steps ≤ c := by
  obtain ⟨-, hbelow, -⟩ := step_completed h ht
  have hlt := State.steps_lt_of_below hbelow hc
  rw [step_steps_eq h ht]
  exact hlt

/-- A run that starts with at most CEILING instructions counted never completes more (R65). -/
theorem State.Reaches.steps_le {s t : State} {c : Nat} (h : s.Reaches t) (ht : t.status.isFaulted = false)
    (hc : s.config.ceiling = some c) (hs : s.steps ≤ c) : t.steps ≤ c := by
  cases h with
  | refl => exact hs
  | tail hreach hstep => exact step_steps_le hstep ht (by rw [hreach.config_eq, hc])

/-- A Running block has a step (spec/70_reset_and_hazards.md R111). -/
theorem step_next {s : State} (hs : s.status = .running) : ∃ t, step s = .next t := by
  cases hf : s.fetchInstr with
  | error c => exact ⟨_, step_of_fetch_error hs hf⟩
  | ok i =>
    rw [step_of_fetch_ok hs hf]
    exact exec_next i s

/-! ### Runs -/

theorem State.Reaches.head {s t u : State} (hstep : step s = .next t) (h : t.Reaches u) : s.Reaches u := by
  induction h with
  | refl => exact .tail .refl hstep
  | tail _ hlast ih => exact .tail ih hlast

theorem State.advance_succ {s t : State} (h : step s = .next t) (k : Nat) : s.advance (k + 1) = t.advance k := by
  rw [State.advance, h]

theorem State.advance_of_not_running {s : State} (h : s.status ≠ .running) (k : Nat) : s.advance k = s := by
  cases k with
  | zero => rfl
  | succ k => rw [State.advance, step_of_not_running h]

theorem State.reaches_advance (s : State) (k : Nat) : s.Reaches (s.advance k) := by
  induction k generalizing s with
  | zero => exact .refl
  | succ k ih =>
    by_cases hs : s.status = .running
    · obtain ⟨t, ht⟩ := step_next hs
      rw [State.advance_succ ht]
      exact .head ht (ih t)
    · rw [State.advance_of_not_running hs]
      exact .refl

/-- More steps than are left under the ceiling end the run: each completed one is counted, and at the ceiling none
completes (spec/70_reset_and_hazards.md R111). -/
theorem State.advance_ends {s : State} {c k : Nat} (hc : s.config.ceiling = some c) (hk : c - s.steps < k) :
    (s.advance k).status ≠ .running := by
  induction k generalizing s with
  | zero => omega
  | succ k ih =>
    by_cases hs : s.status = .running
    · obtain ⟨t, hstep⟩ := step_next hs
      rw [State.advance_succ hstep]
      by_cases ht : t.status = .running
      · have hnot : t.status.isFaulted = false := by rw [ht]; rfl
        have hsteps := step_steps_eq hstep hnot
        have hle := step_steps_le hstep hnot hc
        exact ih (by rw [step_config hstep, hc]) (by omega)
      · rwa [State.advance_of_not_running ht]
    · rwa [State.advance_of_not_running hs]

theorem State.denotes_immediate (s : State) (v : Int) : s.Denotes (.immediate v) v := rfl

/-- A JIT with a true condition and its own address as target runs again and again, if no ceiling stops it. -/
theorem State.advance_running_of_selfJump {s : State} {v : Int} (hs : s.status = .running)
    (hc : s.config.ceiling = none) (hne : v ≠ 0) (hi : s.InstrAtIp (.jit (.immediate v) (.immediate s.ip))) (k : Nat) :
    (s.advance k).status = .running := by
  induction k generalizing s with
  | zero => exact hs
  | succ k ih =>
    have hready : s.Ready := ⟨hs, fun c h => by rw [hc] at h; cases h⟩
    have he := State.branchEffect_resolved (taken := conditionTrue) (s.denotes_immediate v) (s.denotes_immediate s.ip)
    have htrue : conditionTrue v = true := decide_eq_true hne
    rw [htrue] at he
    rw [State.advance_succ ((step_of_instrAtIp hready hi).trans (exec_of_effectOf_ok he))]
    exact ih hs hc hi

/-- A launch stands at the first instruction of its program (spec/70_reset_and_hazards.md R102). -/
theorem State.launch_instrAtIp {l : Launch} {i : Instr} {rest : List Int} (hmode : i.op.runMode = l.mode.runMode)
    (hprogram : l.program = encode i ++ rest) : (State.launch l).InstrAtIp i := by
  refine ⟨hmode, State.CellsAtIp.of_append (rest := rest) fun k v hk => ?_⟩
  rw [← hprogram] at hk
  have hlen : k < l.program.length := (List.getElem?_eq_some_iff.mp hk).1
  have hget := Memory.get_ofCells 0 k l.program
  rw [Nat.zero_add, hk] at hget
  rw [State.launch_ip, Int.zero_add]
  exact ⟨⟨Int.natCast_nonneg k, Int.ofNat_lt.mpr hlen⟩, hget⟩

/-! ### The obligations on steps and runs -/

/-- Settles O11: `step` answers the stop at once, and `advance` stays where `step` stops. -/
theorem terminalBlockHasNoStep : Obligations.TerminalBlockHasNoStep := by
  unfold Obligations.TerminalBlockHasNoStep
  intro s hs
  exact ⟨step_of_not_running hs, State.advance_of_not_running hs⟩

/-- Settles O12: the ceiling is the fetch's first check and the only one that raises RunawayProgram, every completed
step began below it, and so did the HALT that is the last one. -/
theorem ceilingStopsTheRun : Obligations.CeilingStopsTheRun := by
  unfold Obligations.CeilingStopsTheRun
  refine ⟨fun s c hs hc hle => ?_, fun s t hs h => step_ne_runaway hs h, fun l c t hl h ht => ?_,
    fun s i c hs _ hsteps hi hhalt => ?_⟩
  · have hceil : s.ceilingReached = true := by simpa [State.ceilingReached, hc] using hle
    exact step_faultedWith hs (State.fetchInstr_ceiling hceil)
  · exact h.steps_le ht hl (Nat.zero_le c)
  · obtain ⟨t, hx, hhalted, -, hcount, -⟩ := exec_halt_completes hhalt s
    exact ⟨t, (step_of_instrAtIp hs hi).trans hx, hhalted, hcount.trans hsteps⟩

/-- Settles O13: below the ceiling the fetch reads the cell at `ip`, or fails with its address. -/
theorem fetchOutsideTheTapeFaults : Obligations.FetchOutsideTheTapeFaults := by
  unfold Obligations.FetchOutsideTheTapeFaults
  intro s hs
  refine ⟨fun hout => ?_, State.memRead_inBounds⟩
  have hip : ¬ s.InBounds s.ip := by omega
  exact step_faultedWith hs.1 (State.fetchInstr_outside hs.below hip)

/-- Settles O14: the operand cells below LEN can be read, the first one at or beyond it cannot, and an illegal word is
refused before any of them is read. -/
theorem operandCellOutsideTheTapeFaults : Obligations.OperandCellOutsideTheTapeFaults := by
  unfold Obligations.OperandCellOutsideTheTapeFaults
  intro s hs hip
  refine ⟨fun d k hd hpos hk hbefore hout => ?_, fun r hr => step_of_illegal_word hr hs rfl hip rfl⟩
  have hread : ∀ j : Nat, 1 ≤ j → j < k → ∃ v, s.memRead (s.ip + (j : Int)) = .ok v := by
    intro j hj hjk
    have hlt := hbefore j hj hjk
    exact ⟨_, State.memRead_inBounds ⟨by omega, hlt⟩⟩
  have herr : s.memRead (s.ip + (k : Int)) = .error (.outOfBounds (s.ip + (k : Int))) :=
    State.memRead_outside (by omega)
  have hbuild := Decoded.build_eq_error (cell := fun j => s.memRead (s.ip + (j : Int))) hpos hk hread herr
  exact step_faultedWith hs.1 ((State.fetchInstr_legal hs.below hip hd).trans hbuild)

/-- Settles O17: a completed step is a commit, which counts itself. -/
theorem completedStepIsCounted : Obligations.CompletedStepIsCounted := by
  unfold Obligations.CompletedStepIsCounted
  intro s t h ht
  exact step_steps_eq h ht

/-- Settles O44: a Running block has a step, each completed one uses up a step left under the ceiling, and the launch of
`1105,1,0` stands at a JIT to itself. -/
theorem runWithCeilingTerminates : Obligations.RunWithCeilingTerminates := by
  unfold Obligations.RunWithCeilingTerminates
  refine ⟨fun s hs => step_next hs, fun s c hc => ⟨State.advance_ends hc (Nat.lt_succ_self _), fun ht hs => ?_⟩,
    fun W input k => ?_⟩
  · exact (s.reaches_advance _).steps_le ht hc hs
  · exact State.advance_running_of_selfJump rfl rfl one_ne_zero (State.launch_instrAtIp (rest := []) rfl rfl) k

end Sys2Proof.Machine

/-! ## Proofs of the family 41_arith_compare: a result outside `Int_W` raises Overflow -/

namespace Sys2Proof.Machine

/-- A result outside `Int_W` is no value for a cell (spec/41_arith_compare.md R77). -/
theorem checkedResult_overflow {W : Nat} {r : Int} (h : ¬ InRange W r) : checkedResult W r = .error .overflow := if_neg h

/-- The effect of two read operands and a destination that resolve, when the result is none: it fails with the result's
cause. -/
theorem State.binaryEffect_of_result_error {s : State} {result : Int → Int → Except Cause Int} {a b : Operand}
    {dst x y : Int} {c : Cause} (ha : s.Denotes a x) (hb : s.Denotes b y) (hd : s.InBounds dst)
    (hr : result x y = .error c) : s.binaryEffect result a b dst = .error c := by
  rw [State.binaryEffect_resolved ha hb hd, hr]

/-- An instruction whose effect fails with Overflow ends the run with its record, which has no info
(spec/60_exceptions.md R93). -/
theorem exec_overflow_faults {i : Instr} {s : State} (h : s.effectOf i = .error .overflow) :
    ∃ t, exec i s = .next t ∧ t.FaultedWith .overflow s.ip .empty :=
  ⟨_, exec_of_effectOf_error h, s.raise_faultedWith .overflow⟩

/-- Settles O33: the operands resolve and the checked result fails. The restricted forms have the effects of ADD and
MUL on two position operands. -/
theorem resultOutOfRangeOverflows : Obligations.ResultOutOfRangeOverflows := by
  unfold Obligations.ResultOutOfRangeOverflows
  intro s a b dst x y ha hb hd
  have hadd (hr : ¬ InRange s.config.width (x + y)) :
      s.binaryEffect (addResult s.config.width) a b dst = .error .overflow :=
    State.binaryEffect_of_result_error ha hb hd (checkedResult_overflow hr)
  have hmul (hr : ¬ InRange s.config.width (x * y)) :
      s.binaryEffect (mulResult s.config.width) a b dst = .error .overflow :=
    State.binaryEffect_of_result_error ha hb hd (checkedResult_overflow hr)
  refine ⟨fun hr => exec_overflow_faults (hadd hr), fun hr => exec_overflow_faults (hmul hr), ?_⟩
  rintro p₁ p₂ rfl rfl
  exact ⟨fun hr => exec_overflow_faults (hadd hr), fun hr => exec_overflow_faults (hmul hr)⟩

end Sys2Proof.Machine

/-! ## Proofs of the family 44_restricted_mode: the input and output registers are not in use -/

namespace Sys2Proof.Machine

/-- Restricted mode has no IN (spec/44_restricted_mode.md R84). -/
theorem State.effectOf_consume_restricted {s : State} {i : Instr} {e : Effect} (hi : s.InstrAtIp i)
    (he : s.effectOf i = .ok e) (hmode : s.config.mode = .restricted) : e.consume = false := by
  obtain ⟨-, hconsume, -⟩ := State.effectOf_other he
  refine hconsume fun hop => ?_
  have hrun : Op.input.runMode = .restricted := by rw [← hop, ← hmode, hi.1]
  cases hrun

/-- Settles O20: a step that completes commits the effect of the instruction at `ip`, and in restricted mode that
effect neither outputs nor consumes the input. -/
theorem restrictedModeLeavesIoAlone : Obligations.RestrictedModeLeavesIoAlone := by
  unfold Obligations.RestrictedModeLeavesIoAlone
  intro s t hmode h ht
  obtain ⟨i, e, hi, he, rfl⟩ := step_commits h ht
  have hout := State.effectOf_out_restricted hi he hmode
  have hconsume := State.effectOf_consume_restricted hi he hmode
  exact State.commit_sameIo i.op.count hout hconsume

end Sys2Proof.Machine

/-! ## Proofs of the family 60_exceptions: the result surface, the caller's run and the program text -/

namespace Sys2Proof.Machine

/-! ### The result surface (spec/60_exceptions.md R97) -/

theorem State.result_faulted {s : State} {k : FaultKind} (hs : s.status = .faulted k) :
    s.result = some (.error k) := by
  simp only [State.result, hs]

theorem State.result_halted_restricted {s : State} (hs : s.status = .halted) (hmode : s.config.mode = .restricted)
    (hzero : s.InBounds 0) : s.result = some (.ok (s.tape.get 0)) := by
  simp only [State.result, hs, hmode, State.cellZero, if_pos hzero]
  rfl

theorem State.result_halted_full {s : State} (hs : s.status = .halted) (hmode : s.config.mode = .full) :
    s.result = some (if s.outValid then .ok s.outValue else .error .noOutput) := by
  simp only [State.result, hs, hmode]
  split <;> rfl

/-- A halted run stands at its HALT word, so its tape has a cell 0. -/
theorem State.Inv.inBounds_zero {s : State} (hs : s.Inv) (hhalt : s.status = .halted) : s.InBounds 0 := by
  have hvalues := hs.values (by rw [hhalt]; rfl)
  obtain ⟨⟨hpos, hlt⟩, -⟩ := hvalues.halted hhalt
  exact ⟨le_refl 0, hpos.trans_lt hlt⟩

/-- At a terminal status the host reads a result, and a value it reads is `tape[0]` or `out_value`, both in `Int_W`. -/
theorem State.Inv.result_terminal {s : State} (hs : s.Inv) (hterm : s.status ≠ .running) :
    ∃ r, s.result = some r ∧ ∀ v, r = .ok v → InRange s.config.width v := by
  cases hstatus : s.status with
  | running => exact absurd hstatus hterm
  | faulted k => exact ⟨_, State.result_faulted hstatus, nofun⟩
  | halted =>
    have hvalues := hs.values (by rw [hstatus]; rfl)
    cases hmode : s.config.mode with
    | restricted =>
      refine ⟨_, State.result_halted_restricted hstatus hmode (hs.inBounds_zero hstatus), ?_⟩
      rintro v ⟨⟩
      exact hvalues.cells 0
    | full =>
      refine ⟨_, State.result_halted_full hstatus hmode, fun v hv => ?_⟩
      split at hv
      · cases hv
        exact hvalues.io.2
      · cases hv

/-! ### The caller's run (spec/70_reset_and_hazards.md R104, R111) -/

theorem runResult_of_wf {l : Launch} {c : Nat} (hl : l.wf = true) (hc : l.ceiling = some c) :
    runResult l = ((State.launch l).advance (c + 1)).result := by
  simp only [runResult, hc, startRun, if_pos hl]

/-! ### The program text (R94, R104) -/

theorem parseToken_inRange {W : Nat} {t : List Char} {v : Int} (h : parseToken W t = .ok v) : InRange W v := by
  unfold parseToken at h
  split at h
  · cases h
  · split at h
    next hv =>
      cases h
      exact hv
    next => cases h

theorem parseToken_error {W : Nat} {t : List Char} {k : FaultKind} (h : parseToken W t = .error k) :
    k = .parseError := by
  unfold parseToken at h
  split at h
  · cases h
    rfl
  · split at h <;> cases h
    rfl

theorem parseTokens_inRange {W : Nat} {ts : List (List Char)} {vs : List Int} (h : parseTokens W ts = .ok vs) :
    ∀ v ∈ vs, InRange W v := by
  fun_induction parseTokens W ts generalizing vs with
  | case1 =>
    cases h
    exact List.forall_mem_nil _
  | case2 t ts hblank ih => exact ih h
  | case3 => cases h
  | case4 => cases h
  | case5 t ts c cs htoken v hv vs hvs ih =>
    cases h
    exact List.forall_mem_cons.mpr ⟨parseToken_inRange hv, ih hvs⟩

theorem parseTokens_error {W : Nat} {ts : List (List Char)} {k : FaultKind} (h : parseTokens W ts = .error k) :
    k = .parseError := by
  fun_induction parseTokens W ts with
  | case1 => cases h
  | case2 t ts hblank ih => exact ih h
  | case3 t ts c cs htoken k' hk =>
    cases h
    exact parseToken_error hk
  | case4 t ts c cs htoken v hv k' hk ih =>
    cases h
    exact ih hk
  | case5 => cases h

/-! ### The obligations of the family -/

/-- Settles O45: each terminal status and run mode has its result, and the invariant gives a Halted tape its cell 0. -/
theorem resultSurfaceAtTerminalStatus : Obligations.ResultSurfaceAtTerminalStatus := by
  unfold Obligations.ResultSurfaceAtTerminalStatus
  refine fun s => ⟨fun k hs => State.result_faulted hs, fun hinv hs hmode => ?_, fun hs hmode hout => ?_,
    fun hs hmode hout => ?_⟩
  · exact State.result_halted_restricted hs hmode (hinv.inBounds_zero hs)
  · rw [State.result_halted_full hs hmode, hout, if_pos rfl]
  · rw [State.result_halted_full hs hmode, hout, if_neg Bool.false_ne_true]

/-- Settles O47: CEILING + 1 steps end the run, and the invariant of the launch holds of the state it ends in. -/
theorem launchWithCeilingHasResult : Obligations.LaunchWithCeilingHasResult := by
  unfold Obligations.LaunchWithCeilingHasResult
  intro l c hl hc
  have hreach := (State.launch l).reaches_advance (c + 1)
  have hends : ((State.launch l).advance (c + 1)).status ≠ .running := State.advance_ends hc (Nat.lt_succ_self c)
  obtain ⟨r, hr, hrange⟩ := (hreach.inv (State.launch_inv hl)).result_terminal hends
  rw [hreach.config_eq] at hrange
  exact ⟨r, (runResult_of_wf hl hc).trans hr, hrange⟩

/-- Settles O48, by induction on the tokens of the text. -/
theorem parsedProgramFitsTheTape : Obligations.ParsedProgramFitsTheTape := by
  unfold Obligations.ParsedProgramFitsTheTape
  exact fun W text => ⟨fun program h => parseTokens_inRange h, fun k h => parseTokens_error h⟩

end Sys2Proof.Machine

/-! ## Proofs of the family 70_reset_and_hazards: the reset state of a launch (R102) -/

namespace Sys2Proof.Machine

/-- A program cell lies below LEN, the number of the program's cells, and the launched tape holds its value. -/
theorem State.launch_memRead {l : Launch} {k : Nat} {v : Int} (hcell : l.program[k]? = some v) :
    (State.launch l).memRead (k : Int) = .ok v := by
  have hlen : k < l.program.length := (List.getElem?_eq_some_iff.mp hcell).1
  have hget := Memory.get_ofCells 0 k l.program
  rw [Nat.zero_add, hcell] at hget
  exact State.memRead_eq_ok.mpr ⟨⟨Int.natCast_nonneg k, Int.ofNat_lt.mpr hlen⟩, hget⟩

/-- In full mode INPUT stands in the input register, not yet consumed (spec/10_state.md R22). -/
theorem State.launch_full {l : Launch} {input : Int} (hmode : l.mode = .full input) :
    (State.launch l).config.mode = .full ∧ (State.launch l).inValid = true ∧ (State.launch l).inValue = input := by
  simp [Launch.config, hmode, LaunchMode.runMode, resetInValid, resetInValue]

/-- In restricted mode there is no INPUT, and the input register is empty (spec/10_state.md R22). -/
theorem State.launch_restricted {l : Launch} (hmode : l.mode = .restricted) :
    (State.launch l).config.mode = .restricted ∧ (State.launch l).inValid = false ∧
      (State.launch l).inValue = 0 := by
  simp [Launch.config, hmode, LaunchMode.runMode, resetInValid, resetInValue]

/-- The model's own launch meets the launch preconditions: W is 64, and LEN and INPUT are 0 (R6, R7, R10). -/
theorem resetLaunch_wf : resetLaunch.wf = true := by decide

/-! ### The obligations of the family -/

/-- Settles O43: the tape holds the program, the input register is the run mode's, and every other row of R102's table
is the value the launch writes. -/
theorem launchGivesTheResetState : Obligations.LaunchGivesTheResetState := by
  unfold Obligations.LaunchGivesTheResetState
  intro l
  exact ⟨⟨fun _ _ => State.launch_memRead, rfl⟩, State.launch_ip l, fun _ => State.launch_full,
    State.launch_restricted, State.launch_outValue l, State.launch_outValid l, State.launch_status l,
    State.launch_fault l, State.launch_steps l, rfl⟩

/-- Settles O41: the reset state is the launch of `resetLaunch`, and a well-formed launch has the invariant. -/
theorem resetMeetsTheInvariant : Obligations.ResetMeetsTheInvariant := by
  unfold Obligations.ResetMeetsTheInvariant
  exact State.launch_inv resetLaunch_wf

end Sys2Proof.Machine
